-- ==== Sys2Proof/Word.lean ====
section
/-! DEFINITION. The widths of spec/00_scope.md R6 as bit-vector names: `WORDW` = 32, `REGW` = 64, `ADDRW` = 64.
Every value of the block is unsigned (R8), so no signed view of any of them is defined. -/

namespace Sys2Proof

/-- One payload byte of a transaction (30_encoding.md R60). -/
abbrev Byte := BitVec 8

/-- One addressable half of a register, `WORDW` bits (00_scope.md R6). -/
abbrev Word := BitVec 32

/-- One whole register, `REGW` bits (00_scope.md R6). -/
abbrev DWord := BitVec 64

/-- A byte offset relative to the block's base, `ADDRW` bits (20_memory.md R40). -/
abbrev Addr := BitVec 64

end Sys2Proof
end

