-- ==== Sys2Proof/Syntax.lean ====
section
/-! DEFINITION. What can be asked of the block: the inbound request record BUSREQ, the stimuli of the three agents of
00_scope.md R7, and `Instr`, one constructor per row of spec/opcode_table.json. -/

namespace Sys2Proof

/-- The four addressable halves of the two registers (10_state.md R23, 20_memory.md R41). -/
inductive Half where
  | timeLo
  | timeHi
  | cmpLo
  | cmpHi
deriving DecidableEq, Repr

/-- The command of a transaction: there are exactly two (30_encoding.md R61). -/
inductive Cmd where
  | read
  | write
deriving DecidableEq, Repr

/-- Format BUSREQ, the inbound request (30_encoding.md R60): the command is the constructor, a WRITE carries its
payload bytes (byte 0 first; `len` is their number), a READ carries `len` and no data. -/
inductive BusReq where
  | write (addr : Addr) (data : List Byte)
  | read (addr : Addr) (len : Nat)
deriving DecidableEq, Repr, Inhabited

/-- One step asked for by one of the three agents of 00_scope.md R7: an access by the initiator, time by the time
base, a firing by the Interrupt Waiter (the last two have no inbound encoding, 30_encoding.md R72). -/
inductive Stimulus where
  | access (req : BusReq)
  | advance (dt : Nat)
  | fire
deriving DecidableEq, Repr, Inhabited

/-- The operations of the block, one per row of spec/opcode_table.json (30_encoding.md R65, R72).
A write holds its payload, a read its length, and the two INVALID rows the offset that selected them. -/
inductive Instr where
  | wrTimeLo (data : List Byte)
  | wrTimeHi (data : List Byte)
  | wrCmpLo (data : List Byte)
  | wrCmpHi (data : List Byte)
  | rdTimeLo (len : Nat)
  | rdTimeHi (len : Nat)
  | rdCmpLo (len : Nat)
  | rdCmpHi (len : Nat)
  | wrInvalid (addr : Addr) (data : List Byte)
  | rdInvalid (addr : Addr) (len : Nat)
  | fire
  | advance (dt : Nat)
deriving DecidableEq, Repr

end Sys2Proof
end

