-- ==== Sys2Proof/Config.lean ====
section
/-! DEFINITION. The implementation parameters of 00_scope.md R6 and the values the spec leaves open: the record of the
four offsets (its default is `defaultOffsets` in Decode.lean), the start time, and the free values, which are opaque so
that nothing can be proved of any one of them. -/

namespace Sys2Proof

/-- The four register offsets, parameters of the block (00_scope.md R6, 92_eei_decisions.md D1). -/
structure Offsets where
  timeLo : Addr
  timeHi : Addr
  cmpLo : Addr
  cmpHi : Addr
deriving DecidableEq, Repr

/-- `T0`, the value of the time base at reset (00_scope.md R6 `any natural number, commonly 0`).
DESIGN CHOICE, unsafe: one value, 0, for `State.reset`; claims use `State.resetAt t0` for every t0 (log entry 2). -/
def Config.t0 : Nat := 0

/-- `draw_32` (00_scope.md R10): the n-th free word, of which a short WRITE takes the bits above its payload
(30_encoding.md R63, 93_implementation_defined.md U3). Free value, log entry 3. -/
opaque Config.draw : Nat → Word

/-- The latency reported with the n-th ADDRESS_ERROR, which no rule states (20_memory.md R51,
93_implementation_defined.md U7). Free value, log entry 4. -/
opaque Config.errorLatency : Nat → Nat

/-- Which agent steps next, and with what operands, when the outside world has placed nothing: not fixed by the spec
(00_scope.md R7, 42_interrupt_waiter.md R109, R112). Free value, log entry 5. -/
opaque Config.schedule : Nat → Stimulus

end Sys2Proof
end

