-- ==== Sys2Proof/WellFormed.lean ====
section
/-! DEFINITION. The checks a configuration record and an instruction must pass: the three constraints on the offsets
(00_scope.md R6) and the operand ranges of the operations (20_memory.md R42, 42_interrupt_waiter.md R104). -/

namespace Sys2Proof

/-- One of the lengths the block gives a meaning: 4 is architected, 1 to 3 admitted, 0 and above 4 REFUSED
(20_memory.md R42, 30_encoding.md R67). -/
abbrev LegalLength (len : Nat) : Prop := 1 ≤ len ∧ len ≤ 4

/-- The same check as a Bool, for definitions that test it. -/
def legalLength (len : Nat) : Bool := decide (LegalLength len)

/-- `a` is one of the four defined offsets (00_scope.md R14). -/
abbrev Offsets.Defined (o : Offsets) (a : Addr) : Prop :=
  a = o.timeLo ∨ a = o.timeHi ∨ a = o.cmpLo ∨ a = o.cmpHi

/-- The four offsets are pairwise distinct (00_scope.md R6). -/
abbrev Offsets.Distinct (o : Offsets) : Prop :=
  o.timeLo ≠ o.timeHi ∧ o.timeLo ≠ o.cmpLo ∧ o.timeLo ≠ o.cmpHi ∧
  o.timeHi ≠ o.cmpLo ∧ o.timeHi ≠ o.cmpHi ∧ o.cmpLo ≠ o.cmpHi

/-- Each of the four offsets is a multiple of 4 (00_scope.md R6, 20_memory.md R44). -/
abbrev Offsets.Aligned (o : Offsets) : Prop :=
  o.timeLo.toNat % 4 = 0 ∧ o.timeHi.toNat % 4 = 0 ∧ o.cmpLo.toNat % 4 = 0 ∧ o.cmpHi.toNat % 4 = 0

/-- The well-formedness check of a configuration record: distinct, aligned, and `0x20` undefined (00_scope.md R6). -/
abbrev Offsets.WellFormed (o : Offsets) : Prop :=
  o.Distinct ∧ o.Aligned ∧ ¬ o.Defined 0x20

/-- An instruction whose operands are in the ranges the spec gives them, under the offsets `o`. -/
def Instr.wf (o : Offsets) : Instr → Bool
  | .wrTimeLo data => legalLength data.length
  | .wrTimeHi data => legalLength data.length
  | .wrCmpLo data => legalLength data.length
  | .wrCmpHi data => legalLength data.length
  | .rdTimeLo len => legalLength len
  | .rdTimeHi len => legalLength len
  | .rdCmpLo len => legalLength len
  | .rdCmpHi len => legalLength len
  | .wrInvalid addr data => legalLength data.length && !decide (o.Defined addr)
  | .rdInvalid addr len => legalLength len && !decide (o.Defined addr)
  | .fire => true
  | .advance dt => decide (0 < dt)

/-- `i` is well-formed under the offsets `o`. -/
abbrev Instr.WellFormed (o : Offsets) (i : Instr) : Prop := i.wf o = true

end Sys2Proof
end

