-- ==== Sys2Proof/Decode.lean ====
section
/-! DEFINITION. The decoder of 30_encoding.md R65 (which operation a stimulus selects, under any offsets), the encoder
after it, the machine-readable table of R71 as rows of match and mask, and the numbered table words. -/

namespace Sys2Proof

/-! ### The configuration record at the spec's defaults -/

/-- The default offsets `0x0, 0x4, 0x8, 0xC`, LO before HI and `mtime` before `mtimecmp` (00_scope.md R6,
92_eei_decisions.md D1; log entry 1). -/
def defaultOffsets : Offsets := { timeLo := 0x0, timeHi := 0x4, cmpLo := 0x8, cmpHi := 0xC }

/-! ### The fields of a request (R60) -/

/-- `cmd` of BUSREQ (30_encoding.md R60). -/
def BusReq.cmd : BusReq → Cmd
  | .write _ _ => .write
  | .read _ _ => .read

/-- `addr` of BUSREQ (30_encoding.md R60). -/
def BusReq.addr : BusReq → Addr
  | .write a _ => a
  | .read a _ => a

/-- `len` of BUSREQ, the number of payload bytes (30_encoding.md R60). -/
def BusReq.len : BusReq → Nat
  | .write _ data => data.length
  | .read _ len => len

/-! ### Decode (R65) -/

/-- Why a stimulus is no operation. -/
inductive DecodeError where
  /-- `len = 0` or `len > 4` (30_encoding.md R67). -/
  | badLength
  /-- `dt = 0` (42_interrupt_waiter.md R104: `dt > 0`). -/
  | zeroAdvance
deriving DecidableEq, Repr

/-- The half a defined offset names, and `none` for an undefined one: equality on all 64 bits, no masking and no
aliasing (20_memory.md R40, R41, R44). -/
def halfAt (o : Offsets) (a : Addr) : Option Half :=
  if a = o.timeLo then some .timeLo
  else if a = o.timeHi then some .timeHi
  else if a = o.cmpLo then some .cmpLo
  else if a = o.cmpHi then some .cmpHi
  else none

/-- The row a WRITE selects (30_encoding.md R65). -/
def decodeWrite (o : Offsets) (a : Addr) (data : List Byte) : Instr :=
  match halfAt o a with
  | some .timeLo => .wrTimeLo data
  | some .timeHi => .wrTimeHi data
  | some .cmpLo => .wrCmpLo data
  | some .cmpHi => .wrCmpHi data
  | none => .wrInvalid a data

/-- The row a READ selects (30_encoding.md R65). -/
def decodeRead (o : Offsets) (a : Addr) (len : Nat) : Instr :=
  match halfAt o a with
  | some .timeLo => .rdTimeLo len
  | some .timeHi => .rdTimeHi len
  | some .cmpLo => .rdCmpLo len
  | some .cmpHi => .rdCmpHi len
  | none => .rdInvalid a len

/-- A request with a bad length is REFUSED before its offset is looked at (60_exceptions.md R127); every other selects
exactly one of the ten rows (30_encoding.md R65). -/
def decodeBus (o : Offsets) (r : BusReq) : Except DecodeError Instr :=
  if legalLength r.len then
    match r with
    | .write a data => .ok (decodeWrite o a data)
    | .read a len => .ok (decodeRead o a len)
  else .error .badLength

/-- Decode, total on every stimulus (30_encoding.md R65, R72). -/
def decode (o : Offsets) : Stimulus → Except DecodeError Instr
  | .access r => decodeBus o r
  | .advance dt => if dt = 0 then .error .zeroAdvance else .ok (.advance dt)
  | .fire => .ok .fire

/-! ### Encode -/

/-- The stimulus that asks for an instruction: `cmd` and `addr` from the row of 30_encoding.md R65, `len` and `data`
the operands. -/
def encode (o : Offsets) : Instr → Stimulus
  | .wrTimeLo data => .access (.write o.timeLo data)
  | .wrTimeHi data => .access (.write o.timeHi data)
  | .wrCmpLo data => .access (.write o.cmpLo data)
  | .wrCmpHi data => .access (.write o.cmpHi data)
  | .rdTimeLo len => .access (.read o.timeLo len)
  | .rdTimeHi len => .access (.read o.timeHi len)
  | .rdCmpLo len => .access (.read o.cmpLo len)
  | .rdCmpHi len => .access (.read o.cmpHi len)
  | .wrInvalid addr data => .access (.write addr data)
  | .rdInvalid addr len => .access (.read addr len)
  | .fire => .fire
  | .advance dt => .advance dt

/-! ### The machine-readable table (R71) -/

/-- The one-bit coding of the command in the selector: READ 0, WRITE 1 (30_encoding.md R61). -/
def Cmd.bit : Cmd → BitVec 1
  | .read => 0#1
  | .write => 1#1

/-- `sel = (c, addr[63:0])`, 65 bits with the command on top (30_encoding.md R71). -/
def selector (r : BusReq) : BitVec 65 := r.cmd.bit ++ r.addr

/-- One BUSREQ row of the table: selected when `sel & maskBits = matchBits` (30_encoding.md R71). -/
structure Row where
  mnemonic : String
  matchBits : BitVec 65
  maskBits : BitVec 65
deriving DecidableEq, Repr

/-- The eight defined rows, priority 0 (30_encoding.md R71). -/
def definedRows : List Row :=
  [ ⟨"WR_TIME_LO", 0x10000000000000000, 0x1FFFFFFFFFFFFFFFF⟩,
    ⟨"WR_TIME_HI", 0x10000000000000004, 0x1FFFFFFFFFFFFFFFF⟩,
    ⟨"WR_CMP_LO", 0x10000000000000008, 0x1FFFFFFFFFFFFFFFF⟩,
    ⟨"WR_CMP_HI", 0x1000000000000000C, 0x1FFFFFFFFFFFFFFFF⟩,
    ⟨"RD_TIME_LO", 0x00000000000000000, 0x1FFFFFFFFFFFFFFFF⟩,
    ⟨"RD_TIME_HI", 0x00000000000000004, 0x1FFFFFFFFFFFFFFFF⟩,
    ⟨"RD_CMP_LO", 0x00000000000000008, 0x1FFFFFFFFFFFFFFFF⟩,
    ⟨"RD_CMP_HI", 0x0000000000000000C, 0x1FFFFFFFFFFFFFFFF⟩ ]

/-- The two INVALID rows, priority 1: taken only when no defined row matches (30_encoding.md R71). -/
def invalidRows : List Row :=
  [ ⟨"WR_INVALID", 0x10000000000000000, 0x10000000000000000⟩,
    ⟨"RD_INVALID", 0x00000000000000000, 0x10000000000000000⟩ ]

/-- `sel & mask = match`. -/
def Row.selects (r : Row) (sel : BitVec 65) : Bool := sel &&& r.maskBits == r.matchBits

/-- The mnemonic the table of 30_encoding.md R71 selects, defined rows before INVALID ones. -/
def tableSelect (sel : BitVec 65) : Option String :=
  ((definedRows ++ invalidRows).find? (·.selects sel)).map (·.mnemonic)

/-- The row of spec/opcode_table.json an instruction stands for. -/
def Instr.mnemonic : Instr → String
  | .wrTimeLo _ => "WR_TIME_LO"
  | .wrTimeHi _ => "WR_TIME_HI"
  | .wrCmpLo _ => "WR_CMP_LO"
  | .wrCmpHi _ => "WR_CMP_HI"
  | .rdTimeLo _ => "RD_TIME_LO"
  | .rdTimeHi _ => "RD_TIME_HI"
  | .rdCmpLo _ => "RD_CMP_LO"
  | .rdCmpHi _ => "RD_CMP_HI"
  | .wrInvalid _ _ => "WR_INVALID"
  | .rdInvalid _ _ => "RD_INVALID"
  | .fire => "FIRE"
  | .advance _ => "ADVANCE"

/-! ### Numbered table words -/

/-- The IRQTXN row's pattern, the cause word (30_encoding.md R68). -/
def irqPattern : Nat := 0b10000000000000000000000000000111

/-- The inbound request a 65-bit selector stands for (30_encoding.md R71), with the operands the selector has no bits
for at the architected length 4 and, on a WRITE, four zero payload bytes (20_memory.md R42; log entry 8). -/
def selectorRequest (w : Nat) : BusReq :=
  if w.testBit 64 then .write (BitVec.ofNat 64 w) [0, 0, 0, 0] else .read (BitVec.ofNat 64 w) 4

/-- The stimulus of a numbered table word. More than 32 bits: a BUSREQ selector of 65 bits, none above. The 32-bit
IRQTXN pattern: FIRE. Any other short word: the ENV row, which has no encoding (30_encoding.md R72); the word is read as
`dt - 1`, so that every word is a legal ADVANCE (log entry 8). -/
def tableStimulus (nbits w : Nat) : Option Stimulus :=
  if 32 < nbits then
    if w < 2 ^ 65 then some (.access (selectorRequest w)) else none
  else if nbits = 32 ∧ w = irqPattern then some .fire
  else some (.advance (w + 1))

/-- The instruction the decoder reads from a numbered table word at the default offsets. -/
def decodeTableWord (nbits w : Nat) : Option Instr :=
  match tableStimulus nbits w with
  | none => none
  | some st =>
    match decode defaultOffsets st with
    | .ok i => some i
    | .error _ => none

end Sys2Proof
end

