-- ==== Sys2Proof/Machine/State.lean ====
section
/-! DEFINITION. The state of one block instance and its surroundings (10_state.md R20), as plain data; why a step can
stop; and the state after reset (10_state.md R30). The block has no general register, program counter, flag or memory
array (R20, R24, R25, R32), so none appears. -/

namespace Sys2Proof.Machine

/-- The response status of an access (20_memory.md R51, 30_encoding.md R62). -/
inductive Status where
  | ok
  | addressError
deriving DecidableEq, Repr

/-- Format BUSRSP, the response to an inbound transaction (30_encoding.md R62): `rdata` is present only for a READ that
ends OK; `latency` is zero when the status is OK and not stated otherwise. -/
structure BusRsp where
  status : Status
  rdata : Option (List Byte)
  latency : Nat
deriving DecidableEq, Repr

/-- Format IRQTXN, the one transaction the block emits (30_encoding.md R68): `delay` is the delay it is offered with. -/
structure IrqTxn where
  cmd : Cmd
  addr : Addr
  len : Nat
  data : Word
  delay : Nat
deriving DecidableEq, Repr

/-- The Interrupt Waiter's control state, which has one value (10_state.md R20 (d), R25, 42_interrupt_waiter.md R100). -/
inductive WaiterState where
  | waiting
deriving DecidableEq, Repr

/-- One block instance with the time base it reads and the traces a claim is stated over (10_state.md R20). -/
structure State where
  /-- The counter register; it does not tick (10_state.md R21). -/
  mtime : DWord
  /-- The compare register (10_state.md R22). -/
  mtimecmp : DWord
  /-- The pending-notification slot: the absolute deadline of the one pending notification (10_state.md R26). -/
  wake : Option Nat
  /-- The waiter's control state (10_state.md R20 (d), R25). -/
  waiter : WaiterState
  /-- The time base, owned by the environment (10_state.md R27). -/
  T : Nat
  /-- The interrupt trace `irq_log`, oldest first (10_state.md R29). -/
  irqLog : List (Nat × IrqTxn)
  /-- MODEL'S OWN: the response of the most recent access, an output of that access (20_memory.md R51, 10_state.md R32);
  nothing reads it (log entry 6). -/
  rsp : Option BusRsp
  /-- MODEL'S OWN: how many free values have been taken, so that each use is a fresh one (00_scope.md R10; log entry 3). -/
  draws : Nat
  /-- MODEL'S OWN: the steps the outside world has placed, next first (00_scope.md R7; log entry 5). -/
  agenda : List Stimulus
deriving DecidableEq, Repr

/-- Why a run is stuck: a step was asked for that its enabling condition rules out. The block itself has no fatal error
(60_exceptions.md R122). Both are safe: the model gives no next state where the spec has no step. -/
inductive Fault where
  /-- Raised by ADVANCE when it would move `T` past the pending deadline (42_interrupt_waiter.md R104). Safe. -/
  | advanceNotEnabled
  /-- Raised by FIRE unless the pending notification is due now (42_interrupt_waiter.md R105). Safe. -/
  | fireNotEnabled
deriving DecidableEq, Repr

/-- Why the model gives a request no meaning. -/
inductive Refusal where
  /-- An arm of `exec` without a meaning; no arm answers with it now. Safe. -/
  | notModelled (mnemonic : String)
  /-- Raised by every access with `len = 0` or `len > 4`, which the spec calls REFUSED (30_encoding.md R67). Safe. -/
  | badLength
  /-- Raised by ADVANCE(0), which is no operation (42_interrupt_waiter.md R104: `dt > 0`). Safe. -/
  | zeroAdvance
deriving DecidableEq, Repr

/-- The state after construction at time `t0` (10_state.md R30, 70_reset_and_hazards.md R150, R151). -/
def State.resetAt (t0 : Nat) : State where
  mtime := 0
  mtimecmp := 0
  wake := none
  waiter := .waiting
  T := t0
  irqLog := []
  rsp := none
  draws := 0
  agenda := []

/-- The machine right after reset, with the start time of `Config.t0` (10_state.md R30; log entry 2). -/
def State.reset : State := State.resetAt Config.t0

/-! ### One update per field -/

/-- Replace the field `mtime` and nothing else. -/
def State.setMtime (s : State) (v : DWord) : State := { s with mtime := v }

/-- Replace the field `mtimecmp` and nothing else. -/
def State.setMtimecmp (s : State) (v : DWord) : State := { s with mtimecmp := v }

/-- Replace the field `wake` and nothing else. -/
def State.setWake (s : State) (v : Option Nat) : State := { s with wake := v }

/-- Replace the field `waiter` and nothing else. -/
def State.setWaiter (s : State) (v : WaiterState) : State := { s with waiter := v }

/-- Replace the field `T` and nothing else. -/
def State.setTime (s : State) (v : Nat) : State := { s with T := v }

/-- Replace the field `irqLog` and nothing else. -/
def State.setIrqLog (s : State) (v : List (Nat × IrqTxn)) : State := { s with irqLog := v }

/-- Replace the field `rsp` and nothing else. -/
def State.setRsp (s : State) (v : Option BusRsp) : State := { s with rsp := v }

/-- Replace the field `draws` and nothing else. -/
def State.setDraws (s : State) (v : Nat) : State := { s with draws := v }

/-- Replace the field `agenda` and nothing else. -/
def State.setAgenda (s : State) (v : List Stimulus) : State := { s with agenda := v }
end Sys2Proof.Machine
end

