-- ==== Sys2Proof/Machine/Operands.lean ====
section
/-! DEFINITION. Operand assembly: bytes and words (30_encoding.md R63), halves and registers (R64), and the numbers of
time (00_scope.md R9). -/

namespace Sys2Proof.Machine

/-! ### Bytes of a word: payload byte `i` is bits `8i+7 : 8i` (20_memory.md R43) -/

/-- `v[8*i+7 : 8*i]`. -/
def byteOf (v : Word) (i : Nat) : Byte := v.extractLsb' (8 * i) 8

/-- The four bytes of a word, byte 0 first. -/
def wordBytes (v : Word) : List Byte := [byteOf v 0, byteOf v 1, byteOf v 2, byteOf v 3]

/-- Copy bytes into a word, byte 0 first (30_encoding.md R63). -/
def ofBytes : List Byte → Word
  | [] => 0
  | b :: bs => (ofBytes bs <<< 8) ||| b.setWidth 32

/-- The 32-bit scratch of a WRITE: its low `len` bytes are the payload, the others are the draw's
(30_encoding.md R63, 40_register_writes.md R80). -/
def scratch (data : List Byte) (draw : Word) : Word :=
  ofBytes (data ++ (wordBytes draw).drop data.length)

/-- What a READ of length `len` returns of the half `v`: `rdata[i] = v[8*i+7 : 8*i]` for `0 <= i < len`
(30_encoding.md R63, 41_register_reads.md R90). -/
def readBytes (v : Word) (len : Nat) : List Byte := (wordBytes v).take len

/-! ### Halves of a register (30_encoding.md R64) -/

/-- `reg[31:0]`. -/
def loHalf (reg : DWord) : Word := reg.extractLsb' 0 32

/-- `reg[63:32]`. -/
def hiHalf (reg : DWord) : Word := reg.extractLsb' 32 32

/-- `reg <- (reg[63:32], w)`: a write of half LO (30_encoding.md R64). -/
def withLo (reg : DWord) (w : Word) : DWord := hiHalf reg ++ w

/-- `reg <- (w, reg[31:0])`: a write of half HI (30_encoding.md R64). -/
def withHi (reg : DWord) (w : Word) : DWord := w ++ loHalf reg

/-! ### Time -/

/-- `now64() = trunc_64(T)`, the live clock (00_scope.md R9, R10, 10_state.md R27). -/
def now64 (s : State) : DWord := BitVec.ofNat 64 s.T

/-- The block's only arithmetic, `delay = mtimecmp -64 mtime`, unsigned and wrapping on underflow
(42_interrupt_waiter.md R102, 60_exceptions.md R121, 92_eei_decisions.md D9; log entry 9). -/
def delay (mtimecmp mtime : DWord) : DWord := mtimecmp - mtime

end Sys2Proof.Machine
end

