-- ==== Sys2Proof/Machine/Ops.lean ====
section
/-! DEFINITION. The named operations every meaning is written over: the register window (20_memory.md), the response of
an access (R51), making and delivering a notification (42_interrupt_waiter.md R101, R105), the enabling conditions
(R104, R105), and which stimulus comes next. The block takes no exception and has no return from one
(60_exceptions.md R128, R129): its one error is a response status and its interrupt is `deliver`. -/

namespace Sys2Proof.Machine

/-! ### The register window -/

/-- The value a half holds (10_state.md R23). -/
def readHalf (h : Half) (s : State) : Word :=
  match h with
  | .timeLo => loHalf s.mtime
  | .timeHi => hiHalf s.mtime
  | .cmpLo => loHalf s.mtimecmp
  | .cmpHi => hiHalf s.mtimecmp

/-- Replace one half, `a write to one half leaves the other half unchanged` (10_state.md R23). -/
def writeHalf (h : Half) (w : Word) (s : State) : State :=
  match h with
  | .timeLo => s.setMtime (withLo s.mtime w)
  | .timeHi => s.setMtime (withHi s.mtime w)
  | .cmpLo => s.setMtimecmp (withLo s.mtimecmp w)
  | .cmpHi => s.setMtimecmp (withHi s.mtimecmp w)

/-- The refresh `mtime <- now64()`, all 64 bits (41_register_reads.md R91). -/
def refresh (s : State) : State := s.setMtime (now64 s)

/-! ### The notification and the interrupt -/

/-- NOTIFY: `wake <- some (T + nat(delay))`, natural-number addition, replacing whatever was pending
(42_interrupt_waiter.md R101, R103). -/
def notifyAfter (d : DWord) (s : State) : State := s.setWake (some (s.T + d.toNat))

/-- What a write to CMP_HI does after the half is replaced: compute the delay from the new `mtimecmp` and the STORED
`mtime`, and notify (40_register_writes.md R84). -/
def armDeadline (s : State) : State := notifyAfter (delay s.mtimecmp s.mtime) s

/-- The whole effect of a write to CMP_HI: the half first, then the deadline (40_register_writes.md R84). -/
def writeCmpHi (w : Word) (s : State) : State := armDeadline (writeHalf .cmpHi w s)

/-- The constant outbound payload: WRITE, address 0, 4 bytes, cause word `0x80000007`, zero delay (10_state.md R28,
30_encoding.md R68, 60_exceptions.md R124; log entry 10). -/
def irqTxn : IrqTxn := { cmd := .write, addr := 0, len := 4, data := 0x80000007, delay := 0 }

/-- The data bytes of an outbound transaction, byte 0 first (20_memory.md R43). -/
def IrqTxn.bytes (t : IrqTxn) : List Byte := readBytes t.data t.len

/-- `deliver(IRQ)`: the transaction leaves on the interrupt path at this `T`; what the receiver answers is not looked at
(42_interrupt_waiter.md R105, R106). -/
def deliver (s : State) : State := s.setIrqLog (s.irqLog ++ [(s.T, irqTxn)])

/-- The waiter's transition: deliver, forget the notification, be Waiting again (42_interrupt_waiter.md R100, R105). -/
def fireWaiter (s : State) : State := ((deliver s).setWake none).setWaiter .waiting

/-- ADVANCE is enabled: time does not step over a pending deadline (42_interrupt_waiter.md R104). -/
def advanceEnabled (dt : Nat) (s : State) : Bool :=
  match s.wake with
  | none => true
  | some d => decide (s.T + dt ≤ d)

/-- FIRE is enabled: `wake = some d` and `T = d` (42_interrupt_waiter.md R105). -/
def fireEnabled (s : State) : Bool := decide (s.wake = some s.T)

/-! ### Accesses -/

/-- Status OK with zero latency (20_memory.md R51); `rdata` for a READ only. -/
def okRsp (rdata : Option (List Byte)) : BusRsp := { status := .ok, rdata := rdata, latency := 0 }

/-- The response ADDRESS_ERROR: no data, and the n-th unstated latency (60_exceptions.md R120, 20_memory.md R51). -/
def errorRsp (n : Nat) : BusRsp := { status := .addressError, rdata := none, latency := Config.errorLatency n }

/-- One more free value has been taken (00_scope.md R10). -/
def spendDraw (s : State) : State := s.setDraws (s.draws + 1)

/-- A write of `n` payload bytes takes a free value only when bytes of the scratch stay open, `n < 4`
(30_encoding.md R63). -/
def spendShort (n : Nat) (s : State) : State := if n < 4 then spendDraw s else s

/-- The front end of a write to a defined offset: refuse a bad length, assemble the scratch, let it take effect, answer
OK (40_register_writes.md R80). -/
def writeAccess (data : List Byte) (effect : Word → State → State) (s : State) :
    Host.Outcome State Fault Refusal :=
  if legalLength data.length then
    .next ((effect (scratch data (Config.draw s.draws)) (spendShort data.length s)).setRsp (some (okRsp none)))
  else .refused .badLength

/-- The front end of a read of a defined offset: refuse a bad length, let the read's side effect happen, answer OK with
the low `len` bytes of the half (41_register_reads.md R90). -/
def readAccess (len : Nat) (effect : State → State) (h : Half) (s : State) :
    Host.Outcome State Fault Refusal :=
  if legalLength len then
    .next ((effect s).setRsp (some (okRsp (some (readBytes (readHalf h (effect s)) len)))))
  else .refused .badLength

/-- An access to an undefined offset: refuse a bad length, otherwise answer ADDRESS_ERROR and change nothing
(20_memory.md R52, 60_exceptions.md R120). -/
def errorAccess (len : Nat) (s : State) : Host.Outcome State Fault Refusal :=
  if legalLength len then .next ((spendDraw s).setRsp (some (errorRsp s.draws)))
  else .refused .badLength

/-! ### Which stimulus comes next -/

/-- The next stimulus and the state it is taken in: the head of the agenda, or a free one where the outside world has
placed none (00_scope.md R7, 42_interrupt_waiter.md R109, R112; log entry 5). -/
def takeStimulus (s : State) : Stimulus × State :=
  match s.agenda with
  | st :: rest => (st, s.setAgenda rest)
  | [] => (Config.schedule s.draws, spendDraw s)

/-- The refusal a decoding error ends the step with. -/
def refusalOf : DecodeError → Refusal
  | .badLength => .badLength
  | .zeroAdvance => .zeroAdvance

/-- Place a stimulus so that it is the very next step. FIRE is no request: what selects it is a notification that is due
now (42_interrupt_waiter.md R105), so that is placed with it (log entry 8). -/
def present (st : Stimulus) (s : State) : State :=
  match st with
  | .access r => s.setAgenda (.access r :: s.agenda)
  | .advance dt => s.setAgenda (.advance dt :: s.agenda)
  | .fire => (s.setWake (some s.T)).setAgenda (.fire :: s.agenda)

end Sys2Proof.Machine
end

