-- ==== Sys2Proof/Machine/Reads.lean ====
section
/-! DEFINITION. The read family (41_register_reads.md R90 to R95). -/

namespace Sys2Proof.Machine

/-- RD_TIME_LO: `mtime <- now64()` first, all 64 bits, then the low half is returned (41_register_reads.md R91). -/
def execRdTimeLo (len : Nat) (s : State) : Host.Outcome State Fault Refusal :=
  readAccess len refresh .timeLo s

/-- RD_TIME_HI: the stored high half, without a refresh (41_register_reads.md R92). -/
def execRdTimeHi (len : Nat) (s : State) : Host.Outcome State Fault Refusal :=
  readAccess len id .timeHi s

/-- RD_CMP_LO: the low half of `mtimecmp`, no side effect (41_register_reads.md R93). -/
def execRdCmpLo (len : Nat) (s : State) : Host.Outcome State Fault Refusal :=
  readAccess len id .cmpLo s

/-- RD_CMP_HI: the high half of `mtimecmp`, no side effect and no notification (41_register_reads.md R94). -/
def execRdCmpHi (len : Nat) (s : State) : Host.Outcome State Fault Refusal :=
  readAccess len id .cmpHi s

/-- RD_INVALID: ADDRESS_ERROR, no data, no refresh, nothing changed (41_register_reads.md R95). The offset is not looked
at again. -/
def execRdInvalid (_addr : Addr) (len : Nat) (s : State) : Host.Outcome State Fault Refusal :=
  errorAccess len s

end Sys2Proof.Machine
end

