-- ==== Sys2Proof/Machine/Waiter.lean ====
section
/-! DEFINITION. The two steps no transaction asks for: the environment's ADVANCE and the waiter's FIRE
(42_interrupt_waiter.md R104, R105). -/

namespace Sys2Proof.Machine

/-- ADVANCE(dt): `T <- T + dt` when `dt > 0` and no pending deadline lies before `T + dt`; no register changes
(42_interrupt_waiter.md R104). -/
def execAdvance (dt : Nat) (s : State) : Host.Outcome State Fault Refusal :=
  if dt = 0 then .refused .zeroAdvance
  else if advanceEnabled dt s then .next (s.setTime (s.T + dt))
  else .fault .advanceNotEnabled

/-- FIRE: deliver the fixed interrupt transaction once and clear the notification, when it is due now
(42_interrupt_waiter.md R105). -/
def execFire (s : State) : Host.Outcome State Fault Refusal :=
  if fireEnabled s then .next (fireWaiter s) else .fault .fireNotEnabled

end Sys2Proof.Machine
end

