-- ==== Sys2Proof/Machine/Writes.lean ====
section
/-! DEFINITION. The write family (40_register_writes.md R80 to R85). -/

namespace Sys2Proof.Machine

/-- WR_TIME_LO: `mtime <- (mtime[63:32], w)`; no notification, no recomputed deadline (40_register_writes.md R81). -/
def execWrTimeLo (data : List Byte) (s : State) : Host.Outcome State Fault Refusal :=
  writeAccess data (writeHalf .timeLo) s

/-- WR_TIME_HI: `mtime <- (w, mtime[31:0])` (40_register_writes.md R82). -/
def execWrTimeHi (data : List Byte) (s : State) : Host.Outcome State Fault Refusal :=
  writeAccess data (writeHalf .timeHi) s

/-- WR_CMP_LO: `mtimecmp <- (mtimecmp[63:32], w)`; a pending deadline does not move (40_register_writes.md R83). -/
def execWrCmpLo (data : List Byte) (s : State) : Host.Outcome State Fault Refusal :=
  writeAccess data (writeHalf .cmpLo) s

/-- WR_CMP_HI: `mtimecmp <- (w, mtimecmp[31:0])` first, then the delay is computed and the waiter notified, superseding
any pending notification (40_register_writes.md R84, 42_interrupt_waiter.md R101 to R103). -/
def execWrCmpHi (data : List Byte) (s : State) : Host.Outcome State Fault Refusal :=
  writeAccess data writeCmpHi s

/-- WR_INVALID: ADDRESS_ERROR, the payload discarded, nothing changed (40_register_writes.md R85). The offset is not
looked at again. -/
def execWrInvalid (_addr : Addr) (data : List Byte) (s : State) : Host.Outcome State Fault Refusal :=
  errorAccess data.length s

end Sys2Proof.Machine
end

