-- ==== Sys2Proof/Machine/Dispatch.lean ====
section
/-! DEFINITION. One arm per constructor of `Instr`, each one direct call of its meaning. -/

namespace Sys2Proof.Machine

def exec (i : Instr) (s : State) : Host.Outcome State Fault Refusal :=
  match i with
  | .wrTimeLo data => Sys2Proof.Machine.execWrTimeLo data s
  | .wrTimeHi data => Sys2Proof.Machine.execWrTimeHi data s
  | .wrCmpLo data => Sys2Proof.Machine.execWrCmpLo data s
  | .wrCmpHi data => Sys2Proof.Machine.execWrCmpHi data s
  | .rdTimeLo len => Sys2Proof.Machine.execRdTimeLo len s
  | .rdTimeHi len => Sys2Proof.Machine.execRdTimeHi len s
  | .rdCmpLo len => Sys2Proof.Machine.execRdCmpLo len s
  | .rdCmpHi len => Sys2Proof.Machine.execRdCmpHi len s
  | .wrInvalid addr data => Sys2Proof.Machine.execWrInvalid addr data s
  | .rdInvalid addr len => Sys2Proof.Machine.execRdInvalid addr len s
  | .fire => Sys2Proof.Machine.execFire s
  | .advance dt => Sys2Proof.Machine.execAdvance dt s

end Sys2Proof.Machine
end

