-- ==== Sys2Proof/Machine/Step.lean ====
section
/-! DEFINITION. One step of the machine: take the next stimulus, decode it, run the operation it selects. The steps of
the three agents interleave one at a time and no two overlap (00_scope.md R7, 20_memory.md R47). -/

namespace Sys2Proof.Machine

/-- One step of a block whose offsets are `o` (00_scope.md R6: the offsets are parameters). -/
def stepWith (o : Offsets) (s : State) : Host.Outcome State Fault Refusal :=
  match decode o (takeStimulus s).1 with
  | .ok i => exec i (takeStimulus s).2
  | .error e => .refused (refusalOf e)

/-- One step of the block at the default offsets. -/
def step (s : State) : Host.Outcome State Fault Refusal := stepWith defaultOffsets s

/-- `s` with the instruction of a numbered table word as its very next step; unchanged where the word is no stimulus
(log entry 8). -/
def State.withFetchWord (s : State) (nbits w : Nat) : State :=
  match tableStimulus nbits w with
  | some st => present st s
  | none => s

end Sys2Proof.Machine
end

