-- ==== Sys2Proof/Machine/Pseudo.lean ====
section
/-! DEFINITION. The pseudo-operations of 30_encoding.md R69, each as its expansion in the block's operations. -/

namespace Sys2Proof.Machine

/-- `WR name, v`: a 4-byte write of the 32-bit value `v` (30_encoding.md R69). -/
def wr (h : Half) (v : Word) : Instr :=
  match h with
  | .timeLo => .wrTimeLo (wordBytes v)
  | .timeHi => .wrTimeHi (wordBytes v)
  | .cmpLo => .wrCmpLo (wordBytes v)
  | .cmpHi => .wrCmpHi (wordBytes v)

/-- `RD name`: a 4-byte read (30_encoding.md R69). -/
def rd (h : Half) : Instr :=
  match h with
  | .timeLo => .rdTimeLo 4
  | .timeHi => .rdTimeHi 4
  | .cmpLo => .rdCmpLo 4
  | .cmpHi => .rdCmpHi 4

/-- `WR64 CMP, v`: LO first, so that the one notification is made from the whole new value (30_encoding.md R69,
70_reset_and_hazards.md R154). -/
def wr64Cmp (v : DWord) : List Instr := [wr .cmpLo (loHalf v), wr .cmpHi (hiHalf v)]

/-- `WR64 TIME, v` (30_encoding.md R69). -/
def wr64Time (v : DWord) : List Instr := [wr .timeLo (loHalf v), wr .timeHi (hiHalf v)]

/-- `RD64 TIME`: LO first, always (30_encoding.md R69, 70_reset_and_hazards.md R153). -/
def rd64Time : List Instr := [rd .timeLo, rd .timeHi]

/-- `RD64 CMP` (30_encoding.md R69). -/
def rd64Cmp : List Instr := [rd .cmpLo, rd .cmpHi]

/-- `ARM v`: refresh `mtime`, then `WR64 CMP, v` (30_encoding.md R69, 70_reset_and_hazards.md R155). -/
def arm (v : DWord) : List Instr := rd .timeLo :: wr64Cmp v

end Sys2Proof.Machine
end

