-- ==== Sys2Proof/Safety.lean ====
section
/-! DEFINITION. The terms claims are stated in: a run of operations, the invariant of 10_state.md R34, and which
operations arm, touch the time register or can be told apart. -/

namespace Sys2Proof.Machine

/-- Operations taken one at a time, each from the state the one before it left, stopping at the first fault or refusal
(00_scope.md R7, 20_memory.md R47). -/
def runInstrs : List Instr → State → Host.Outcome State Fault Refusal
  | [], s => .next s
  | i :: is, s =>
    match exec i s with
    | .next t => runInstrs is t
    | .fault r => .fault r
    | .refused r => .refused r

/-- The operations that make a notification: writes to CMP_HI and nothing else (42_interrupt_waiter.md R101). -/
def isCmpHiWrite : Instr → Bool
  | .wrCmpHi _ => true
  | .wrTimeLo _ => false
  | .wrTimeHi _ => false
  | .wrCmpLo _ => false
  | .rdTimeLo _ => false
  | .rdTimeHi _ => false
  | .rdCmpLo _ => false
  | .rdCmpHi _ => false
  | .wrInvalid _ _ => false
  | .rdInvalid _ _ => false
  | .fire => false
  | .advance _ => false

/-- The operations that write `mtime` (10_state.md R21). -/
def writesMtime : Instr → Bool
  | .wrTimeLo _ => true
  | .wrTimeHi _ => true
  | .rdTimeLo _ => true
  | .wrCmpLo _ => false
  | .wrCmpHi _ => false
  | .rdTimeHi _ => false
  | .rdCmpLo _ => false
  | .rdCmpHi _ => false
  | .wrInvalid _ _ => false
  | .rdInvalid _ _ => false
  | .fire => false
  | .advance _ => false

/-- The ten inbound operations, the initiator's steps (00_scope.md R7, 30_encoding.md R65). -/
def isAccess : Instr → Bool
  | .wrTimeLo _ => true
  | .wrTimeHi _ => true
  | .rdTimeLo _ => true
  | .wrCmpLo _ => true
  | .wrCmpHi _ => true
  | .rdTimeHi _ => true
  | .rdCmpLo _ => true
  | .rdCmpHi _ => true
  | .wrInvalid _ _ => true
  | .rdInvalid _ _ => true
  | .fire => false
  | .advance _ => false

/-- The column `enabled when` of 42_interrupt_waiter.md R112. -/
def Enabled (st : Stimulus) (s : State) : Prop :=
  match st with
  | .access r => LegalLength r.len
  | .advance dt => 0 < dt ∧ ∀ d, s.wake = some d → s.T + dt ≤ d
  | .fire => s.wake = some s.T

/-- A state a run may end in: no run ends with FIRE enabled (42_interrupt_waiter.md R111). -/
abbrev RunMayEnd (s : State) : Prop := s.wake ≠ some s.T

/-- How many notifications are pending: the slot holds at most one (10_state.md R26). -/
def pendingCount (s : State) : Nat :=
  match s.wake with
  | none => 0
  | some _ => 1

/-- What holds of every reachable state (10_state.md R34 I1, I2, I4), with the trace in the order of its times (R29). -/
structure Inv (s : State) : Prop where
  /-- I1: a pending deadline has not been passed. -/
  deadline_not_passed : ∀ d, s.wake = some d → s.T ≤ d
  /-- I2: the waiter is in Waiting. -/
  waiter_waiting : s.waiter = .waiting
  /-- I4: every delivery carries the same constant. -/
  deliveries_constant : ∀ e ∈ s.irqLog, e.2 = irqTxn
  /-- No delivery lies in the future. -/
  deliveries_past : ∀ e ∈ s.irqLog, e.1 ≤ s.T
  /-- Deliveries are listed oldest first. -/
  deliveries_in_order : s.irqLog.Pairwise (fun a b => a.1 ≤ b.1)

/-- Two states that agree on everything but the notification slot and the interrupt trace (10_state.md R26, R29). -/
structure SameButNotification (s t : State) : Prop where
  mtime_eq : s.mtime = t.mtime
  mtimecmp_eq : s.mtimecmp = t.mtimecmp
  time_eq : s.T = t.T
  rsp_eq : s.rsp = t.rsp
  draws_eq : s.draws = t.draws
  agenda_eq : s.agenda = t.agenda

/-- `w` holds the payload in its low bytes: payload byte `i` is bits `8i+7 : 8i` (20_memory.md R43, 30_encoding.md R63).
The bits above the payload are not constrained. -/
def CarriesPayload (data : List Byte) (w : Word) : Prop :=
  ∀ i (h : i < data.length), w.extractLsb' (8 * i) 8 = data[i]

/-- The `n` bytes of a register from bit `start` up, byte 0 first (20_memory.md R43). -/
def registerBytes (reg : DWord) (start n : Nat) : List Byte :=
  (List.range n).map (fun i => reg.extractLsb' (start + 8 * i) 8)

end Sys2Proof.Machine
end

