-- ==== Sys2Proof/Certificates/Slice0/Obligations.lean ====
section
/-! DEFINITION. The statements for the provers, each over every state and operand its rule speaks of. `rsp`, `draws` and
`agenda` are the model's own fields (log entries 3, 5, 6); no statement rests on the value of a free one. -/

open Sys2Proof Sys2Proof.Machine

/-! ### Reset and invariants -/

/-- 10_state.md R30: the state after construction, for every start time `t0`, nothing pending, nothing delivered, the
outbound payload the constant of R28, and no interrupt due although `mtime` is not below `mtimecmp`. `State.reset` is the
one at `t0 = 0`, the model's choice (log entry 2). -/
def Obligations.ResetLeavesSpecValues : Prop :=
  (∀ t0 : Nat,
    (State.resetAt t0).mtime = 0 ∧ (State.resetAt t0).mtimecmp = 0 ∧ (State.resetAt t0).wake = none ∧
    (State.resetAt t0).waiter = .waiting ∧ (State.resetAt t0).T = t0 ∧ (State.resetAt t0).irqLog = [] ∧
    exec .fire (State.resetAt t0) = .fault .fireNotEnabled) ∧
  irqTxn = { cmd := .write, addr := 0, len := 4, data := 0x80000007, delay := 0 }

/-- `State.reset` is construction at time 0: the start time is a parameter of the spec (00_scope.md R6) and its one value
here is the MODEL'S CHOICE (log entry 2). -/
def Obligations.ResetIsConstructionAtTimeZero : Prop :=
  State.reset = State.resetAt 0 ∧ core.reset = State.reset

/-- The reset state, at every start time, meets the invariant of 10_state.md R34. -/
def Obligations.ResetMeetsInvariant : Prop :=
  ∀ t0 : Nat, Inv (State.resetAt t0)

/-- 10_state.md R34 I1, I2, I4 (with the order of the trace, R29): whatever the offsets, whichever agent steps, a step
from a state that meets the invariant gives one that meets it. -/
def Obligations.EveryStepKeepsInvariant : Prop :=
  ∀ (o : Offsets) (s t : State), Inv s → stepWith o s = .next t → Inv t

/-! ### Decode -/

/-- For every well-formed choice of offsets and every well-formed instruction, decoding its encoding gives it back. -/
def Obligations.DecodeOfEncodeIsIdentity : Prop :=
  ∀ (o : Offsets) (i : Instr), o.WellFormed → i.WellFormed o → decode o (encode o i) = .ok i

/-- Whatever the offsets, a stimulus that decodes is the encoding of the instruction it decodes to, and that instruction
is well-formed: no two stimuli decode to one instruction and no ill-formed instruction is ever decoded. -/
def Obligations.EncodeOfDecodeIsIdentity : Prop :=
  ∀ (o : Offsets) (st : Stimulus) (i : Instr), decode o st = .ok i → encode o i = st ∧ i.WellFormed o

/-- 30_encoding.md R65: at every well-formed choice of offsets, each of the four offsets selects its row under each
command, every other offset selects the INVALID row, and so every pair of command and offset selects exactly one row. -/
def Obligations.DecodeTableIsTotal : Prop :=
  ∀ o : Offsets, o.WellFormed →
    (∀ data : List Byte, LegalLength data.length →
      decode o (.access (.write o.timeLo data)) = .ok (.wrTimeLo data) ∧
      decode o (.access (.write o.timeHi data)) = .ok (.wrTimeHi data) ∧
      decode o (.access (.write o.cmpLo data)) = .ok (.wrCmpLo data) ∧
      decode o (.access (.write o.cmpHi data)) = .ok (.wrCmpHi data) ∧
      ∀ a, ¬ o.Defined a → decode o (.access (.write a data)) = .ok (.wrInvalid a data)) ∧
    (∀ len : Nat, LegalLength len →
      decode o (.access (.read o.timeLo len)) = .ok (.rdTimeLo len) ∧
      decode o (.access (.read o.timeHi len)) = .ok (.rdTimeHi len) ∧
      decode o (.access (.read o.cmpLo len)) = .ok (.rdCmpLo len) ∧
      decode o (.access (.read o.cmpHi len)) = .ok (.rdCmpHi len) ∧
      ∀ a, ¬ o.Defined a → decode o (.access (.read a len)) = .ok (.rdInvalid a len))

/-- 30_encoding.md R71: at the default offsets, the operation the decoder selects is the one the match and mask rows of
the machine-readable table select over the 65-bit selector, defined rows before INVALID ones. -/
def Obligations.DecoderAgreesWithMatchAndMask : Prop :=
  ∀ (r : BusReq) (i : Instr), decode defaultOffsets (.access r) = .ok i → tableSelect (selector r) = some i.mnemonic

/-- A sanity statement: table words written out from 30_encoding.md R68 and R71 decode to their rows. The operands a
selector has no bits for are the model's choice (log entry 8). -/
def Obligations.WrittenOutWordsDecode : Prop :=
  decodeTableWord 72 0x10000000000000004 = some (.wrTimeHi [0, 0, 0, 0]) ∧
  decodeTableWord 72 0x1000000000000000C = some (.wrCmpHi [0, 0, 0, 0]) ∧
  decodeTableWord 72 0x10000000000000020 = some (.wrInvalid 0x20 [0, 0, 0, 0]) ∧
  decodeTableWord 72 0x00000000000000000 = some (.rdTimeLo 4) ∧
  decodeTableWord 72 0x00000000000000008 = some (.rdCmpLo 4) ∧
  decodeTableWord 72 0x0000000000000000D = some (.rdInvalid 0xD 4) ∧
  decodeTableWord 32 0x80000007 = some .fire

/-! ### The step -/

/-- When the next stimulus placed decodes to an instruction, the step is that instruction's meaning in the state without
that stimulus, at every choice of offsets; the block's own step is the one at the default offsets. The agenda is the
model's choice (log entry 5). -/
def Obligations.StepRunsDecodedStimulus : Prop :=
  (∀ (o : Offsets) (s : State) (st : Stimulus) (rest : List Stimulus) (i : Instr),
    s.agenda = st :: rest → decode o st = .ok i → stepWith o s = exec i { s with agenda := rest }) ∧
  (∀ s : State, step s = stepWith defaultOffsets s)

/-- Where nothing is placed, the next stimulus is the free one that the count of free values selects, and one more free
value has been taken: the step is the step with `Config.schedule s.draws` placed. `Config.schedule` is opaque, so nothing
is known of that stimulus. The model's choice for the order the spec leaves open (00_scope.md R7; log entry 5). -/
def Obligations.StepWithEmptyAgendaIsFree : Prop :=
  ∀ (o : Offsets) (s : State), s.agenda = [] →
    stepWith o s = stepWith o { s with agenda := [Config.schedule s.draws], draws := s.draws + 1 }

/-- 42_interrupt_waiter.md R112, its column of enabling conditions: a step runs exactly when the stimulus placed next is
enabled. An access runs at every offset and in every state when its length is legal, ADVANCE when `dt > 0` and no pending
deadline is passed, FIRE when a notification is due now. -/
def Obligations.StepRunsExactlyWhenEnabled : Prop :=
  ∀ (o : Offsets) (s : State) (st : Stimulus) (rest : List Stimulus), s.agenda = st :: rest →
    ((∃ t, stepWith o s = .next t) ↔ Enabled st s)

/-- 30_encoding.md R67: an access with `len = 0` or `len > 4` is REFUSED, whatever its command and offset (defined or
not), and every one of the ten operations refuses such a length. -/
def Obligations.BadLengthIsRefused : Prop :=
  (∀ (o : Offsets) (s : State) (r : BusReq) (rest : List Stimulus),
    s.agenda = .access r :: rest → r.len = 0 ∨ 4 < r.len → stepWith o s = .refused .badLength) ∧
  (∀ (s : State) (a : Addr) (data : List Byte), data.length = 0 ∨ 4 < data.length →
    exec (.wrTimeLo data) s = .refused .badLength ∧ exec (.wrTimeHi data) s = .refused .badLength ∧
    exec (.wrCmpLo data) s = .refused .badLength ∧ exec (.wrCmpHi data) s = .refused .badLength ∧
    exec (.wrInvalid a data) s = .refused .badLength) ∧
  (∀ (s : State) (a : Addr) (len : Nat), len = 0 ∨ 4 < len →
    exec (.rdTimeLo len) s = .refused .badLength ∧ exec (.rdTimeHi len) s = .refused .badLength ∧
    exec (.rdCmpLo len) s = .refused .badLength ∧ exec (.rdCmpHi len) s = .refused .badLength ∧
    exec (.rdInvalid a len) s = .refused .badLength)

/-! ### Register writes -/

/-- 40_register_writes.md R81 (with R80's lengths): the low half of `mtime` becomes a word whose low bytes are the
payload, the response is OK with zero latency, and nothing else changes but the model's count of draws. -/
def Obligations.WrTimeLoReplacesLowHalf : Prop :=
  ∀ (data : List Byte) (s : State), LegalLength data.length →
    ∃ (w : Word) (k : Nat), CarriesPayload data w ∧
      exec (.wrTimeLo data) s = .next { s with
        mtime := s.mtime.extractLsb' 32 32 ++ w,
        rsp := some { status := .ok, rdata := none, latency := 0 }, draws := k }

/-- 40_register_writes.md R82 (with R80's lengths): the high half of `mtime`. -/
def Obligations.WrTimeHiReplacesHighHalf : Prop :=
  ∀ (data : List Byte) (s : State), LegalLength data.length →
    ∃ (w : Word) (k : Nat), CarriesPayload data w ∧
      exec (.wrTimeHi data) s = .next { s with
        mtime := w ++ s.mtime.extractLsb' 0 32,
        rsp := some { status := .ok, rdata := none, latency := 0 }, draws := k }

/-- 40_register_writes.md R83 (with R80's lengths): the low half of `mtimecmp`; the pending deadline does not move. -/
def Obligations.WrCmpLoReplacesLowHalf : Prop :=
  ∀ (data : List Byte) (s : State), LegalLength data.length →
    ∃ (w : Word) (k : Nat), CarriesPayload data w ∧
      exec (.wrCmpLo data) s = .next { s with
        mtimecmp := s.mtimecmp.extractLsb' 32 32 ++ w,
        rsp := some { status := .ok, rdata := none, latency := 0 }, draws := k }

/-- 40_register_writes.md R84 with 42_interrupt_waiter.md R101, R102, R103: the high half of `mtimecmp` is replaced
first; the delay is the new `mtimecmp` less the stored `mtime`, plus `2^64` exactly when that would be negative; the
deadline is `T` plus the delay in natural numbers, replacing whatever was pending; and nothing is delivered. -/
def Obligations.WrCmpHiReplacesHighHalfAndArms : Prop :=
  ∀ (data : List Byte) (s : State), LegalLength data.length →
    ∃ (w : Word) (c : DWord) (d k : Nat), CarriesPayload data w ∧
      c = w ++ s.mtimecmp.extractLsb' 0 32 ∧
      (s.mtime.toNat ≤ c.toNat → d = c.toNat - s.mtime.toNat) ∧
      (c.toNat < s.mtime.toNat → d = 2 ^ 64 - (s.mtime.toNat - c.toNat)) ∧
      exec (.wrCmpHi data) s = .next { s with
        mtimecmp := c, wake := some (s.T + d),
        rsp := some { status := .ok, rdata := none, latency := 0 }, draws := k }

/-- 40_register_writes.md R85 and 41_register_reads.md R95: both INVALID operations answer ADDRESS_ERROR with no data
and some latency, and nothing else changes but the model's count of draws. -/
def Obligations.InvalidAccessAnswersAddressError : Prop :=
  ∀ (a : Addr) (s : State),
    (∀ data : List Byte, LegalLength data.length → ∃ l k : Nat,
      exec (.wrInvalid a data) s = .next { s with
        rsp := some { status := .addressError, rdata := none, latency := l }, draws := k }) ∧
    (∀ len : Nat, LegalLength len → ∃ l k : Nat,
      exec (.rdInvalid a len) s = .next { s with
        rsp := some { status := .addressError, rdata := none, latency := l }, draws := k })

/-- 20_memory.md R52 and R44, for a whole step: a request of a legal length at any offset that is not a defined one, or
that is not a multiple of 4 (under well-formed offsets), ends with ADDRESS_ERROR and no data and leaves `mtime`,
`mtimecmp`, `wake`, `T` and the trace as they were. -/
def Obligations.UndefinedOffsetChangesNothing : Prop :=
  ∀ (o : Offsets) (s : State) (r : BusReq) (rest : List Stimulus),
    s.agenda = .access r :: rest → LegalLength r.len →
    (¬ o.Defined r.addr ∨ (o.WellFormed ∧ r.addr.toNat % 4 ≠ 0)) →
    ∃ l k : Nat, stepWith o s = .next { s with
      agenda := rest, rsp := some { status := .addressError, rdata := none, latency := l }, draws := k }

/-! ### Register reads -/

/-- 41_register_reads.md R91 (with R90's lengths): all of `mtime` takes the live clock, `T` modulo `2^64`, and the low
`len` bytes of its low half are returned; nothing else changes. -/
def Obligations.RdTimeLoRefreshesAndReturnsLow : Prop :=
  ∀ (len : Nat) (s : State), LegalLength len →
    exec (.rdTimeLo len) s = .next { s with
      mtime := BitVec.ofNat 64 s.T,
      rsp := some { status := .ok, rdata := some (registerBytes (BitVec.ofNat 64 s.T) 0 len), latency := 0 } }

/-- 41_register_reads.md R92, R93, R94 (with R90's lengths): the stored half is returned, without a refresh and without
a notification; nothing changes. -/
def Obligations.PlainReadsReturnStoredHalf : Prop :=
  ∀ (len : Nat) (s : State), LegalLength len →
    exec (.rdTimeHi len) s = .next { s with
      rsp := some { status := .ok, rdata := some (registerBytes s.mtime 32 len), latency := 0 } } ∧
    exec (.rdCmpLo len) s = .next { s with
      rsp := some { status := .ok, rdata := some (registerBytes s.mtimecmp 0 len), latency := 0 } } ∧
    exec (.rdCmpHi len) s = .next { s with
      rsp := some { status := .ok, rdata := some (registerBytes s.mtimecmp 32 len), latency := 0 } }

/-- 10_state.md R23, 30_encoding.md R64, of the stored halves: a half that is replaced holds the new word, and the other
three hold what they held. (What a READ of TIME_LO answers is another matter: WrittenHalvesReadBackExceptTimeLo.) -/
def Obligations.HalfWriteLeavesOtherHalves : Prop :=
  ∀ (h g : Half) (w : Word) (s : State),
    readHalf h (writeHalf h w s) = w ∧ (g ≠ h → readHalf g (writeHalf h w s) = readHalf g s)

/-- 90_conflicts.md C2 (95_test_vectors.md S1 as it holds): TIME_HI, CMP_LO and CMP_HI read back the value written;
TIME_LO reads back the live clock. -/
def Obligations.WrittenHalvesReadBackExceptTimeLo : Prop :=
  ∀ (v : Word) (s : State),
    (∀ h : Half, h ≠ .timeLo → ∃ u, runInstrs [wr h v, rd h] s = .next u ∧
      u.rsp = some { status := .ok, rdata := some ((List.range 4).map (fun i => v.extractLsb' (8 * i) 8)), latency := 0 }) ∧
    (∃ u, runInstrs [wr .timeLo v, rd .timeLo] s = .next u ∧
      u.rsp = some { status := .ok, rdata := some (registerBytes (BitVec.ofNat 64 s.T) 0 4), latency := 0 })

/-- 70_reset_and_hazards.md R153: a TIME_LO read, then any operations that write no `mtime`, then a TIME_HI read return
the eight bytes of one sample, the clock at the TIME_LO read, however far time moved in between. -/
def Obligations.LowThenHighReadIsOneSnapshot : Prop :=
  ∀ (is : List Instr) (s t u v : State),
    exec (.rdTimeLo 4) s = .next t → (∀ i ∈ is, writesMtime i = false) → runInstrs is t = .next u →
    exec (.rdTimeHi 4) u = .next v →
    ∃ lo hi : List Byte,
      t.rsp = some { status := .ok, rdata := some lo, latency := 0 } ∧
      v.rsp = some { status := .ok, rdata := some hi, latency := 0 } ∧
      lo ++ hi = registerBytes (BitVec.ofNat 64 s.T) 0 8

/-! ### Time and the interrupt -/

/-- 42_interrupt_waiter.md R104: ADVANCE(dt) with `dt > 0` runs exactly when nothing is pending or `T + dt` does not pass
the deadline, and then it moves `T` and changes nothing else; past the deadline there is no step, and ADVANCE(0) is no
operation. -/
def Obligations.AdvanceRunsExactlyWhenEnabled : Prop :=
  ∀ (dt : Nat) (s : State),
    (0 < dt → (∀ d, s.wake = some d → s.T + dt ≤ d) → exec (.advance dt) s = .next { s with T := s.T + dt }) ∧
    (∀ d, 0 < dt → s.wake = some d → d < s.T + dt → exec (.advance dt) s = .fault .advanceNotEnabled) ∧
    (dt = 0 → exec (.advance dt) s = .refused .zeroAdvance)

/-- 42_interrupt_waiter.md R105: FIRE runs exactly when the pending notification is due now; then the one constant
transaction is appended to the trace with this `T`, nothing is pending, the waiter waits again, and nothing else
changes. -/
def Obligations.FireRunsExactlyWhenDue : Prop :=
  ∀ s : State,
    (s.wake = some s.T → exec .fire s = .next { s with
      irqLog := s.irqLog ++ [(s.T, { cmd := .write, addr := 0, len := 4, data := 0x80000007, delay := 0 })],
      wake := none, waiter := .waiting }) ∧
    (s.wake ≠ some s.T → exec .fire s = .fault .fireNotEnabled)

/-- 30_encoding.md R68: the fields of the outbound transaction and the two fields of its cause word; its bytes are
`07 00 00 80` (20_memory.md R43). -/
def Obligations.OutboundTransactionIsFixed : Prop :=
  irqTxn.cmd = .write ∧ irqTxn.addr = 0 ∧ irqTxn.len = 4 ∧ irqTxn.delay = 0 ∧ irqTxn.data = 0x80000007 ∧
  irqTxn.data.extractLsb' 31 1 = 1 ∧ irqTxn.data.extractLsb' 0 31 = 7 ∧ irqTxn.bytes = [0x07, 0x00, 0x00, 0x80]

/-- 10_state.md R21, R22, R26, R27, R29: which operations can change each piece of state. `mtime` changes only by a
TIME write or a TIME_LO read, `mtimecmp` only by a CMP write, `wake` only by a CMP_HI write or FIRE, `T` only by ADVANCE,
the trace only by FIRE; and an access answers while the other two leave the last answer standing. -/
def Obligations.OnlyNamedOperationsChangeEachField : Prop :=
  ∀ (i : Instr) (s t : State), exec i s = .next t →
    (t.mtime ≠ s.mtime → writesMtime i = true) ∧
    (t.mtimecmp ≠ s.mtimecmp → ∃ data, i = .wrCmpLo data ∨ i = .wrCmpHi data) ∧
    (t.wake ≠ s.wake → isCmpHiWrite i = true ∨ i = .fire) ∧
    (t.T ≠ s.T → ∃ dt, i = .advance dt) ∧
    (t.irqLog ≠ s.irqLog → i = .fire) ∧
    (t.rsp ≠ s.rsp → isAccess i = true) ∧
    t.agenda = s.agenda

/-- 42_interrupt_waiter.md R104, R105, R111: in a state that meets the invariant, exactly one of FIRE and `ADVANCE(1)`
runs, so time is never stuck and never passes a due deadline. -/
def Obligations.ExactlyOneOfFireAndAdvanceRuns : Prop :=
  ∀ s : State, Inv s →
    ((∃ t, exec .fire s = .next t) ∧ exec (.advance 1) s = .fault .advanceNotEnabled) ∨
    ((∃ t, exec (.advance 1) s = .next t) ∧ exec .fire s = .fault .fireNotEnabled)

/-- 42_interrupt_waiter.md R111: in a run from a state where FIRE is enabled, FIRE or a superseding CMP_HI write comes
before any ADVANCE; and if the run ends where a run may end, one of the two is in it. -/
def Obligations.DueFireIsTakenOrSuperseded : Prop :=
  ∀ (is : List Instr) (s t : State), s.wake = some s.T → runInstrs is s = .next t →
    (∀ (before later : List Instr) (dt : Nat), is = before ++ .advance dt :: later →
      ∃ i ∈ before, i = .fire ∨ isCmpHiWrite i = true) ∧
    (RunMayEnd t → ∃ i ∈ is, i = .fire ∨ isCmpHiWrite i = true)

/-- 10_state.md R27, R29: along every run time never decreases and deliveries are never taken back. -/
def Obligations.TimeAndTraceOnlyGrow : Prop :=
  ∀ (is : List Instr) (s t : State), runInstrs is s = .next t → s.T ≤ t.T ∧ s.irqLog <+: t.irqLog

/-- The counter behind 00_scope.md R10 (a draw is different at every use), the model's choice (log entry 3): no operation
takes the count of free values back, and a short WRITE and an address error each move it on. Which values are taken at the
count is OpenValuesAreThoseAtTheDrawCounter. -/
def Obligations.DrawCounterMovesOnAtEachUse : Prop :=
  ∀ (i : Instr) (s t : State), exec i s = .next t →
    s.draws ≤ t.draws ∧
    (∀ data : List Byte, data.length < 4 →
      i = .wrTimeLo data ∨ i = .wrTimeHi data ∨ i = .wrCmpLo data ∨ i = .wrCmpHi data → s.draws < t.draws) ∧
    (∀ (a : Addr) (data : List Byte) (len : Nat), i = .wrInvalid a data ∨ i = .rdInvalid a len → s.draws < t.draws)

/-- 30_encoding.md R63 and 20_memory.md R51 where they leave a value open, in the model's form (log entries 3, 4): every
short WRITE to a defined offset completes, and the bytes of the half above its payload are those of the free word at the
count of free values; every INVALID access completes, and its latency is the free one at that count. -/
def Obligations.OpenValuesAreThoseAtTheDrawCounter : Prop :=
  ∀ s : State,
    (∀ data : List Byte, 1 ≤ data.length → data.length < 4 →
      (∃ t, exec (.wrTimeLo data) s = .next t ∧ ∀ k, data.length ≤ k → k < 4 →
        t.mtime.extractLsb' (8 * k) 8 = (Config.draw s.draws).extractLsb' (8 * k) 8) ∧
      (∃ t, exec (.wrTimeHi data) s = .next t ∧ ∀ k, data.length ≤ k → k < 4 →
        t.mtime.extractLsb' (32 + 8 * k) 8 = (Config.draw s.draws).extractLsb' (8 * k) 8) ∧
      (∃ t, exec (.wrCmpLo data) s = .next t ∧ ∀ k, data.length ≤ k → k < 4 →
        t.mtimecmp.extractLsb' (8 * k) 8 = (Config.draw s.draws).extractLsb' (8 * k) 8) ∧
      (∃ t, exec (.wrCmpHi data) s = .next t ∧ ∀ k, data.length ≤ k → k < 4 →
        t.mtimecmp.extractLsb' (32 + 8 * k) 8 = (Config.draw s.draws).extractLsb' (8 * k) 8)) ∧
    (∀ (a : Addr) (data : List Byte), LegalLength data.length → ∃ t, exec (.wrInvalid a data) s = .next t ∧
      t.rsp = some { status := .addressError, rdata := none, latency := Config.errorLatency s.draws }) ∧
    (∀ (a : Addr) (len : Nat), LegalLength len → ∃ t, exec (.rdInvalid a len) s = .next t ∧
      t.rsp = some { status := .addressError, rdata := none, latency := Config.errorLatency s.draws })

/-- 42_interrupt_waiter.md R101, R103, R105, R107: after a CMP_HI write that makes the deadline `d`, whatever was pending
before it, along every run with no further CMP_HI write either nothing is delivered, the notification is still pending
and its deadline is not passed, or exactly one interrupt is delivered, at time `d`, and nothing is pending. -/
def Obligations.ArmedDeadlineDeliversExactlyOnce : Prop :=
  ∀ (data : List Byte) (is : List Instr) (s t u : State) (d : Nat),
    exec (.wrCmpHi data) s = .next t → t.wake = some d →
    (∀ i ∈ is, isCmpHiWrite i = false) → runInstrs is t = .next u →
    (u.wake = some d ∧ u.irqLog = s.irqLog ∧ u.T ≤ d) ∨
    (u.wake = none ∧ u.irqLog = s.irqLog ++ [(d, irqTxn)] ∧ d ≤ u.T)

/-- 42_interrupt_waiter.md R107: a pending deadline that time reaches is delivered: moving time to it is enabled, FIRE is
then enabled, and the delivery carries the deadline. -/
def Obligations.PendingDeadlineCanBeReachedAndFired : Prop :=
  ∀ (s : State) (d : Nat), s.wake = some d → s.T < d →
    runInstrs [.advance (d - s.T), .fire] s = .next { s with
      T := d, wake := none, irqLog := s.irqLog ++ [(d, irqTxn)] }

/-- 42_interrupt_waiter.md R107, 70_reset_and_hazards.md R151: with nothing pending, no run without a CMP_HI write ever
delivers an interrupt, however far time moves and whatever `mtime` and `mtimecmp` hold. -/
def Obligations.UnarmedTimerNeverDelivers : Prop :=
  ∀ (is : List Instr) (s t : State), s.wake = none → (∀ i ∈ is, isCmpHiWrite i = false) →
    runInstrs is s = .next t → t.wake = none ∧ t.irqLog = s.irqLog

/-- 10_state.md R34 I3: along every run, deliveries made and notifications pending number at most those at its start and
the CMP_HI writes performed. -/
def Obligations.DeliveriesNeverExceedNotifications : Prop :=
  ∀ (is : List Instr) (s t : State), runInstrs is s = .next t →
    t.irqLog.length + pendingCount t ≤ s.irqLog.length + pendingCount s + is.countP isCmpHiWrite

/-- 10_state.md R26: whether a notification is pending, when it is due and what was delivered cannot be read: two runs of
the same operations from states that differ only there, taking the same free values (log entry 3), give the same answers,
registers and time. -/
def Obligations.NotificationIsUnobservable : Prop :=
  ∀ (is : List Instr) (s t s' t' : State), SameButNotification s t →
    runInstrs is s = .next s' → runInstrs is t = .next t' → SameButNotification s' t'

/-- 42_interrupt_waiter.md R108: a CMP_HI write that leaves `mtimecmp = mtime` delivers nothing itself; at that `T` every
ADVANCE is disabled and FIRE delivers. -/
def Obligations.ZeroDelayFiresBeforeTimeMoves : Prop :=
  ∀ (data : List Byte) (s t : State), exec (.wrCmpHi data) s = .next t → t.mtimecmp = t.mtime →
    t.wake = some s.T ∧ t.irqLog = s.irqLog ∧
    (∀ dt, 0 < dt → exec (.advance dt) t = .fault .advanceNotEnabled) ∧
    ∃ u, exec .fire t = .next u ∧ u.irqLog = s.irqLog ++ [(s.T, irqTxn)] ∧ u.wake = none

/-- 42_interrupt_waiter.md R109, 70_reset_and_hazards.md R161: when a deadline is due, FIRE before a CMP_HI write and the
write alone both run, and differ only in the one delivery: taken first, the write supersedes the due notification. -/
def Obligations.DueDeadlineMayFireOrBeSuperseded : Prop :=
  ∀ (data : List Byte) (s : State), s.wake = some s.T → LegalLength data.length →
    ∃ t : State, exec (.wrCmpHi data) s = .next t ∧ t.irqLog = s.irqLog ∧
      runInstrs [.fire, .wrCmpHi data] s = .next { t with irqLog := s.irqLog ++ [(s.T, irqTxn)] }

/-! ### Sequences software must keep -/

/-- 30_encoding.md R69, 70_reset_and_hazards.md R155: `ARM v` at a `T` below `2^64` and not past `v` makes a notification
due at the absolute time `v`, leaves the clock's sample in `mtime` and delivers nothing. -/
def Obligations.ArmMakesAbsoluteDeadline : Prop :=
  ∀ (v : DWord) (s : State), s.T ≤ v.toNat →
    ∃ t, runInstrs (arm v) s = .next t ∧ t.wake = some v.toNat ∧ t.mtimecmp = v ∧
      t.mtime.toNat = s.T ∧ t.T = s.T ∧ t.irqLog = s.irqLog

/-- 70_reset_and_hazards.md R155, R156: `WR64 CMP, v` makes a notification due `v` less the STORED `mtime` after the
write when `mtime` is not above `v` (at once when equal), and `2^64` less the shortfall after it when it is. -/
def Obligations.CompareUpdateCountsFromStoredTime : Prop :=
  ∀ (v : DWord) (s : State), ∃ t, runInstrs (wr64Cmp v) s = .next t ∧
    t.mtimecmp = v ∧ t.mtime = s.mtime ∧ t.T = s.T ∧ t.irqLog = s.irqLog ∧
    (s.mtime.toNat ≤ v.toNat → t.wake = some (s.T + (v.toNat - s.mtime.toNat))) ∧
    (v.toNat < s.mtime.toNat → t.wake = some (s.T + (2 ^ 64 - (s.mtime.toNat - v.toNat))))

/-- 70_reset_and_hazards.md R154: written HI then LO, or with the three-store sequence that ends in LO, `mtimecmp` holds
the new value but the deadline is that of the high half with the low half of the moment of the HI write. -/
def Obligations.LateLowWriteDoesNotMoveDeadline : Prop :=
  ∀ (v : DWord) (s : State),
    (∃ t, runInstrs [wr .cmpHi (v.extractLsb' 32 32), wr .cmpLo (v.extractLsb' 0 32)] s = .next t ∧
      t.mtimecmp = v ∧
      t.wake = some (s.T + ((v.extractLsb' 32 32 ++ s.mtimecmp.extractLsb' 0 32 : DWord) - s.mtime).toNat)) ∧
    (∃ t, runInstrs [wr .cmpLo 0xFFFFFFFF, wr .cmpHi (v.extractLsb' 32 32), wr .cmpLo (v.extractLsb' 0 32)] s = .next t ∧
      t.mtimecmp = v ∧
      t.wake = some (s.T + ((v.extractLsb' 32 32 ++ (0xFFFFFFFF : Word) : DWord) - s.mtime).toNat))
end

