-- ==== Sys2Proof/Laws/Decode.lean ====
section
/-! SUPPORT. What the offset comparison of the decoder finds (20_memory.md R40, R41, R52), for any offsets. -/

namespace Sys2Proof

/-- The Bool check and the predicate say one thing. -/
@[simp] theorem legalLength_iff {len : Nat} : legalLength len = true ↔ LegalLength len := decide_eq_true_iff

/-- An offset names no half exactly when it is undefined (20_memory.md R52). -/
theorem halfAt_eq_none_iff (o : Offsets) (a : Addr) : halfAt o a = none ↔ ¬ o.Defined a := by
  unfold halfAt Offsets.Defined
  split
  · next h1 => simp [h1]
  split
  · next h2 => simp [h2]
  split
  · next h3 => simp [h3]
  split
  · next h4 => simp [h4]
  · next h1 h2 h3 h4 => simp [h1, h2, h3, h4]

@[simp] theorem halfAt_timeLo (o : Offsets) : halfAt o o.timeLo = some .timeLo := by simp [halfAt]

theorem halfAt_timeHi {o : Offsets} (h : o.WellFormed) : halfAt o o.timeHi = some .timeHi := by
  obtain ⟨⟨h1, h2, h3, h4, h5, h6⟩, _, _⟩ := h
  simp [halfAt, h1.symm]

theorem halfAt_cmpLo {o : Offsets} (h : o.WellFormed) : halfAt o o.cmpLo = some .cmpLo := by
  obtain ⟨⟨h1, h2, h3, h4, h5, h6⟩, _, _⟩ := h
  simp [halfAt, h2.symm, h4.symm]

theorem halfAt_cmpHi {o : Offsets} (h : o.WellFormed) : halfAt o o.cmpHi = some .cmpHi := by
  obtain ⟨⟨h1, h2, h3, h4, h5, h6⟩, _, _⟩ := h
  simp [halfAt, h3.symm, h5.symm, h6.symm]

/-- An offset names a half only where it equals that half's offset (20_memory.md R40). -/
theorem halfAt_some {o : Offsets} {a : Addr} {h : Half} (hh : halfAt o a = some h) :
    a = match h with
      | .timeLo => o.timeLo
      | .timeHi => o.timeHi
      | .cmpLo => o.cmpLo
      | .cmpHi => o.cmpHi := by
  unfold halfAt at hh
  repeat' split at hh
  all_goals first
    | (injection hh with hh; subst hh; assumption)
    | cases hh

/-- Every defined offset is a multiple of 4 (20_memory.md R44). -/
theorem aligned_of_defined {o : Offsets} {a : Addr} (h : o.WellFormed) (d : o.Defined a) : a.toNat % 4 = 0 := by
  obtain ⟨_, ⟨h1, h2, h3, h4⟩, _⟩ := h
  rcases d with rfl | rfl | rfl | rfl
  · exact h1
  · exact h2
  · exact h3
  · exact h4

/-- The default offsets meet the three constraints (00_scope.md R6). -/
theorem defaultOffsets_wellFormed : defaultOffsets.WellFormed := by decide

end Sys2Proof
end

