-- ==== Sys2Proof/Laws/State.lean ====
section
/-! SUPPORT. One lemma per field per update of `State`, true by rfl and tagged simp, so that no later proof unfolds a
record update. -/

namespace Sys2Proof.Machine

/-! ### `State.setMtime` -/

@[simp] theorem State.setMtime_mtime (s : State) (v : DWord) : (s.setMtime v).mtime = v := rfl
@[simp] theorem State.setMtime_mtimecmp (s : State) (v : DWord) : (s.setMtime v).mtimecmp = s.mtimecmp := rfl
@[simp] theorem State.setMtime_wake (s : State) (v : DWord) : (s.setMtime v).wake = s.wake := rfl
@[simp] theorem State.setMtime_waiter (s : State) (v : DWord) : (s.setMtime v).waiter = s.waiter := rfl
@[simp] theorem State.setMtime_T (s : State) (v : DWord) : (s.setMtime v).T = s.T := rfl
@[simp] theorem State.setMtime_irqLog (s : State) (v : DWord) : (s.setMtime v).irqLog = s.irqLog := rfl
@[simp] theorem State.setMtime_rsp (s : State) (v : DWord) : (s.setMtime v).rsp = s.rsp := rfl
@[simp] theorem State.setMtime_draws (s : State) (v : DWord) : (s.setMtime v).draws = s.draws := rfl
@[simp] theorem State.setMtime_agenda (s : State) (v : DWord) : (s.setMtime v).agenda = s.agenda := rfl

/-! ### `State.setMtimecmp` -/

@[simp] theorem State.setMtimecmp_mtime (s : State) (v : DWord) : (s.setMtimecmp v).mtime = s.mtime := rfl
@[simp] theorem State.setMtimecmp_mtimecmp (s : State) (v : DWord) : (s.setMtimecmp v).mtimecmp = v := rfl
@[simp] theorem State.setMtimecmp_wake (s : State) (v : DWord) : (s.setMtimecmp v).wake = s.wake := rfl
@[simp] theorem State.setMtimecmp_waiter (s : State) (v : DWord) : (s.setMtimecmp v).waiter = s.waiter := rfl
@[simp] theorem State.setMtimecmp_T (s : State) (v : DWord) : (s.setMtimecmp v).T = s.T := rfl
@[simp] theorem State.setMtimecmp_irqLog (s : State) (v : DWord) : (s.setMtimecmp v).irqLog = s.irqLog := rfl
@[simp] theorem State.setMtimecmp_rsp (s : State) (v : DWord) : (s.setMtimecmp v).rsp = s.rsp := rfl
@[simp] theorem State.setMtimecmp_draws (s : State) (v : DWord) : (s.setMtimecmp v).draws = s.draws := rfl
@[simp] theorem State.setMtimecmp_agenda (s : State) (v : DWord) : (s.setMtimecmp v).agenda = s.agenda := rfl

/-! ### `State.setWake` -/

@[simp] theorem State.setWake_mtime (s : State) (v : Option Nat) : (s.setWake v).mtime = s.mtime := rfl
@[simp] theorem State.setWake_mtimecmp (s : State) (v : Option Nat) : (s.setWake v).mtimecmp = s.mtimecmp := rfl
@[simp] theorem State.setWake_wake (s : State) (v : Option Nat) : (s.setWake v).wake = v := rfl
@[simp] theorem State.setWake_waiter (s : State) (v : Option Nat) : (s.setWake v).waiter = s.waiter := rfl
@[simp] theorem State.setWake_T (s : State) (v : Option Nat) : (s.setWake v).T = s.T := rfl
@[simp] theorem State.setWake_irqLog (s : State) (v : Option Nat) : (s.setWake v).irqLog = s.irqLog := rfl
@[simp] theorem State.setWake_rsp (s : State) (v : Option Nat) : (s.setWake v).rsp = s.rsp := rfl
@[simp] theorem State.setWake_draws (s : State) (v : Option Nat) : (s.setWake v).draws = s.draws := rfl
@[simp] theorem State.setWake_agenda (s : State) (v : Option Nat) : (s.setWake v).agenda = s.agenda := rfl

/-! ### `State.setWaiter` -/

@[simp] theorem State.setWaiter_mtime (s : State) (v : WaiterState) : (s.setWaiter v).mtime = s.mtime := rfl
@[simp] theorem State.setWaiter_mtimecmp (s : State) (v : WaiterState) : (s.setWaiter v).mtimecmp = s.mtimecmp := rfl
@[simp] theorem State.setWaiter_wake (s : State) (v : WaiterState) : (s.setWaiter v).wake = s.wake := rfl
@[simp] theorem State.setWaiter_waiter (s : State) (v : WaiterState) : (s.setWaiter v).waiter = v := rfl
@[simp] theorem State.setWaiter_T (s : State) (v : WaiterState) : (s.setWaiter v).T = s.T := rfl
@[simp] theorem State.setWaiter_irqLog (s : State) (v : WaiterState) : (s.setWaiter v).irqLog = s.irqLog := rfl
@[simp] theorem State.setWaiter_rsp (s : State) (v : WaiterState) : (s.setWaiter v).rsp = s.rsp := rfl
@[simp] theorem State.setWaiter_draws (s : State) (v : WaiterState) : (s.setWaiter v).draws = s.draws := rfl
@[simp] theorem State.setWaiter_agenda (s : State) (v : WaiterState) : (s.setWaiter v).agenda = s.agenda := rfl

/-! ### `State.setTime` -/

@[simp] theorem State.setTime_mtime (s : State) (v : Nat) : (s.setTime v).mtime = s.mtime := rfl
@[simp] theorem State.setTime_mtimecmp (s : State) (v : Nat) : (s.setTime v).mtimecmp = s.mtimecmp := rfl
@[simp] theorem State.setTime_wake (s : State) (v : Nat) : (s.setTime v).wake = s.wake := rfl
@[simp] theorem State.setTime_waiter (s : State) (v : Nat) : (s.setTime v).waiter = s.waiter := rfl
@[simp] theorem State.setTime_T (s : State) (v : Nat) : (s.setTime v).T = v := rfl
@[simp] theorem State.setTime_irqLog (s : State) (v : Nat) : (s.setTime v).irqLog = s.irqLog := rfl
@[simp] theorem State.setTime_rsp (s : State) (v : Nat) : (s.setTime v).rsp = s.rsp := rfl
@[simp] theorem State.setTime_draws (s : State) (v : Nat) : (s.setTime v).draws = s.draws := rfl
@[simp] theorem State.setTime_agenda (s : State) (v : Nat) : (s.setTime v).agenda = s.agenda := rfl

/-! ### `State.setIrqLog` -/

@[simp] theorem State.setIrqLog_mtime (s : State) (v : List (Nat × IrqTxn)) : (s.setIrqLog v).mtime = s.mtime := rfl
@[simp] theorem State.setIrqLog_mtimecmp (s : State) (v : List (Nat × IrqTxn)) : (s.setIrqLog v).mtimecmp = s.mtimecmp := rfl
@[simp] theorem State.setIrqLog_wake (s : State) (v : List (Nat × IrqTxn)) : (s.setIrqLog v).wake = s.wake := rfl
@[simp] theorem State.setIrqLog_waiter (s : State) (v : List (Nat × IrqTxn)) : (s.setIrqLog v).waiter = s.waiter := rfl
@[simp] theorem State.setIrqLog_T (s : State) (v : List (Nat × IrqTxn)) : (s.setIrqLog v).T = s.T := rfl
@[simp] theorem State.setIrqLog_irqLog (s : State) (v : List (Nat × IrqTxn)) : (s.setIrqLog v).irqLog = v := rfl
@[simp] theorem State.setIrqLog_rsp (s : State) (v : List (Nat × IrqTxn)) : (s.setIrqLog v).rsp = s.rsp := rfl
@[simp] theorem State.setIrqLog_draws (s : State) (v : List (Nat × IrqTxn)) : (s.setIrqLog v).draws = s.draws := rfl
@[simp] theorem State.setIrqLog_agenda (s : State) (v : List (Nat × IrqTxn)) : (s.setIrqLog v).agenda = s.agenda := rfl

/-! ### `State.setRsp` -/

@[simp] theorem State.setRsp_mtime (s : State) (v : Option BusRsp) : (s.setRsp v).mtime = s.mtime := rfl
@[simp] theorem State.setRsp_mtimecmp (s : State) (v : Option BusRsp) : (s.setRsp v).mtimecmp = s.mtimecmp := rfl
@[simp] theorem State.setRsp_wake (s : State) (v : Option BusRsp) : (s.setRsp v).wake = s.wake := rfl
@[simp] theorem State.setRsp_waiter (s : State) (v : Option BusRsp) : (s.setRsp v).waiter = s.waiter := rfl
@[simp] theorem State.setRsp_T (s : State) (v : Option BusRsp) : (s.setRsp v).T = s.T := rfl
@[simp] theorem State.setRsp_irqLog (s : State) (v : Option BusRsp) : (s.setRsp v).irqLog = s.irqLog := rfl
@[simp] theorem State.setRsp_rsp (s : State) (v : Option BusRsp) : (s.setRsp v).rsp = v := rfl
@[simp] theorem State.setRsp_draws (s : State) (v : Option BusRsp) : (s.setRsp v).draws = s.draws := rfl
@[simp] theorem State.setRsp_agenda (s : State) (v : Option BusRsp) : (s.setRsp v).agenda = s.agenda := rfl

/-! ### `State.setDraws` -/

@[simp] theorem State.setDraws_mtime (s : State) (v : Nat) : (s.setDraws v).mtime = s.mtime := rfl
@[simp] theorem State.setDraws_mtimecmp (s : State) (v : Nat) : (s.setDraws v).mtimecmp = s.mtimecmp := rfl
@[simp] theorem State.setDraws_wake (s : State) (v : Nat) : (s.setDraws v).wake = s.wake := rfl
@[simp] theorem State.setDraws_waiter (s : State) (v : Nat) : (s.setDraws v).waiter = s.waiter := rfl
@[simp] theorem State.setDraws_T (s : State) (v : Nat) : (s.setDraws v).T = s.T := rfl
@[simp] theorem State.setDraws_irqLog (s : State) (v : Nat) : (s.setDraws v).irqLog = s.irqLog := rfl
@[simp] theorem State.setDraws_rsp (s : State) (v : Nat) : (s.setDraws v).rsp = s.rsp := rfl
@[simp] theorem State.setDraws_draws (s : State) (v : Nat) : (s.setDraws v).draws = v := rfl
@[simp] theorem State.setDraws_agenda (s : State) (v : Nat) : (s.setDraws v).agenda = s.agenda := rfl

/-! ### `State.setAgenda` -/

@[simp] theorem State.setAgenda_mtime (s : State) (v : List Stimulus) : (s.setAgenda v).mtime = s.mtime := rfl
@[simp] theorem State.setAgenda_mtimecmp (s : State) (v : List Stimulus) : (s.setAgenda v).mtimecmp = s.mtimecmp := rfl
@[simp] theorem State.setAgenda_wake (s : State) (v : List Stimulus) : (s.setAgenda v).wake = s.wake := rfl
@[simp] theorem State.setAgenda_waiter (s : State) (v : List Stimulus) : (s.setAgenda v).waiter = s.waiter := rfl
@[simp] theorem State.setAgenda_T (s : State) (v : List Stimulus) : (s.setAgenda v).T = s.T := rfl
@[simp] theorem State.setAgenda_irqLog (s : State) (v : List Stimulus) : (s.setAgenda v).irqLog = s.irqLog := rfl
@[simp] theorem State.setAgenda_rsp (s : State) (v : List Stimulus) : (s.setAgenda v).rsp = s.rsp := rfl
@[simp] theorem State.setAgenda_draws (s : State) (v : List Stimulus) : (s.setAgenda v).draws = s.draws := rfl
@[simp] theorem State.setAgenda_agenda (s : State) (v : List Stimulus) : (s.setAgenda v).agenda = v := rfl
/-! ### `State.resetAt` -/

@[simp] theorem State.resetAt_mtime (t : Nat) : (State.resetAt t).mtime = 0 := rfl
@[simp] theorem State.resetAt_mtimecmp (t : Nat) : (State.resetAt t).mtimecmp = 0 := rfl
@[simp] theorem State.resetAt_wake (t : Nat) : (State.resetAt t).wake = none := rfl
@[simp] theorem State.resetAt_waiter (t : Nat) : (State.resetAt t).waiter = .waiting := rfl
@[simp] theorem State.resetAt_T (t : Nat) : (State.resetAt t).T = t := rfl
@[simp] theorem State.resetAt_irqLog (t : Nat) : (State.resetAt t).irqLog = [] := rfl
@[simp] theorem State.resetAt_rsp (t : Nat) : (State.resetAt t).rsp = none := rfl
@[simp] theorem State.resetAt_draws (t : Nat) : (State.resetAt t).draws = 0 := rfl
@[simp] theorem State.resetAt_agenda (t : Nat) : (State.resetAt t).agenda = [] := rfl

/-- The waiter is in Waiting in every state (10_state.md R34 I2). -/
theorem State.waiter_eq_waiting (s : State) : s.waiter = .waiting := by cases s.waiter; rfl

end Sys2Proof.Machine
end

