-- ==== Sys2Proof/Laws/Operands.lean ====
section
/-! SUPPORT. Bytes of a word and halves of a register: each definition of Machine/Operands.lean, once. -/

namespace Sys2Proof.Machine

/-- Bit `j` of a word built from bytes is bit `j % 8` of byte `j / 8`. -/
theorem ofBytes_getLsbD (bs : List Byte) (j : Nat) (hj : j < 32) :
    (ofBytes bs).getLsbD j = (bs.getD (j / 8) 0).getLsbD (j % 8) := by
  induction bs generalizing j with
  | nil => simp [ofBytes]
  | cons b bs ih =>
    by_cases h : j < 8
    · simp [ofBytes, h, hj, Nat.div_eq_of_lt h, Nat.mod_eq_of_lt h]
    · obtain ⟨m, rfl⟩ : ∃ m, j = m + 8 := ⟨j - 8, by omega⟩
      have hb : b.getLsbD (m + 8) = false := BitVec.getLsbD_of_ge _ _ (by omega)
      have hs : (ofBytes (b :: bs)).getLsbD (m + 8) = (ofBytes bs).getLsbD m := by
        simp only [ofBytes, BitVec.getLsbD_or, BitVec.getLsbD_shiftLeft, BitVec.getLsbD_setWidth, hb, hj]
        simp
      rw [hs, ih m (by omega), Nat.add_div_right m (by decide), Nat.add_mod_right, List.getD_cons_succ]

/-- Byte `i` of a word built from bytes is byte `i` of the list. -/
theorem byteOf_ofBytes (bs : List Byte) (i : Nat) (hi : i < 4) : byteOf (ofBytes bs) i = bs.getD i 0 := by
  refine BitVec.eq_of_getLsbD_eq fun j hj => ?_
  have h1 : (8 * i + j) / 8 = i := by omega
  have h2 : (8 * i + j) % 8 = j := by omega
  simp only [byteOf, BitVec.getLsbD_extractLsb', hj, decide_true, Bool.true_and]
  rw [ofBytes_getLsbD bs _ (by omega), h1, h2]

/-- Bit `j` of a word is bit `j % 8` of its byte `j / 8`. -/
theorem getLsbD_byteOf (v : Word) (j : Nat) : v.getLsbD j = (byteOf v (j / 8)).getLsbD (j % 8) := by
  have h : 8 * (j / 8) + j % 8 = j := by omega
  simp only [byteOf, BitVec.getLsbD_extractLsb', h]
  simp [Nat.mod_lt j (by decide : 0 < 8)]

/-- Two words with the same four bytes are one word. -/
theorem eq_of_byteOf_eq {v w : Word} (h : ∀ i < 4, byteOf v i = byteOf w i) : v = w := by
  refine BitVec.eq_of_getLsbD_eq fun j hj => ?_
  rw [getLsbD_byteOf v, getLsbD_byteOf w, h (j / 8) (by omega)]

/-- The scratch carries the payload in its low bytes (30_encoding.md R63). -/
theorem byteOf_scratch (data : List Byte) (draw : Word) (i : Nat) (h : i < data.length) (h4 : i < 4) :
    byteOf (scratch data draw) i = data[i] := by
  rw [scratch, byteOf_ofBytes _ _ h4, List.getD_eq_getElem?_getD, List.getElem?_append_left h,
    List.getElem?_eq_getElem h]
  rfl

/-- The scratch's bytes above the payload are the draw's (30_encoding.md R63). -/
theorem byteOf_scratch_open (data : List Byte) (draw : Word) (i : Nat) (h : data.length ≤ i) (h4 : i < 4) :
    byteOf (scratch data draw) i = byteOf draw i := by
  rw [scratch, byteOf_ofBytes _ _ h4, List.getD_eq_getElem?_getD, List.getElem?_append_right h, List.getElem?_drop]
  rw [Nat.add_sub_cancel' h]
  obtain rfl | rfl | rfl | rfl : i = 0 ∨ i = 1 ∨ i = 2 ∨ i = 3 := by omega
  all_goals rfl

/-- The scratch of a legal payload carries it. -/
theorem scratch_low_bytes (data : List Byte) (h : data.length ≤ 4) (draw : Word) (i : Nat) (hi : i < data.length) :
    (scratch data draw).extractLsb' (8 * i) 8 = data[i] :=
  byteOf_scratch data draw i hi (by omega)

/-- A payload of four bytes leaves nothing to the draw: the scratch of a value's bytes is the value. -/
@[simp] theorem scratch_wordBytes (v draw : Word) : scratch (wordBytes v) draw = v := by
  refine eq_of_byteOf_eq fun i hi => ?_
  rw [byteOf_scratch _ _ i (by simpa [wordBytes] using hi) hi]
  obtain rfl | rfl | rfl | rfl : i = 0 ∨ i = 1 ∨ i = 2 ∨ i = 3 := by omega
  all_goals rfl

@[simp] theorem wordBytes_length (v : Word) : (wordBytes v).length = 4 := rfl

/-- A read of `len` bytes lists the bytes of the half from the lowest up (41_register_reads.md R90). -/
theorem readBytes_eq_map (v : Word) (len : Nat) (h : len ≤ 4) :
    readBytes v len = (List.range len).map (byteOf v) := by
  obtain rfl | rfl | rfl | rfl | rfl : len = 0 ∨ len = 1 ∨ len = 2 ∨ len = 3 ∨ len = 4 := by omega
  all_goals rfl

/-! ### Halves -/

/-- Bit `j` of two halves put together (00_scope.md R8). -/
theorem getLsbD_halves (h l : Word) (j : Nat) :
    (h ++ l : DWord).getLsbD j = if j < 32 then l.getLsbD j else h.getLsbD (j - 32) :=
  (BitVec.getLsbD_append (x := h) (y := l) (i := j)).trans (by by_cases hj : j < 32 <;> simp [hj])

@[simp] theorem loHalf_append (h l : Word) : loHalf (h ++ l : DWord) = l := by
  refine BitVec.eq_of_getLsbD_eq fun j hj => ?_
  rw [loHalf, BitVec.getLsbD_extractLsb', getLsbD_halves]
  simp [hj]

@[simp] theorem hiHalf_append (h l : Word) : hiHalf (h ++ l : DWord) = h := by
  refine BitVec.eq_of_getLsbD_eq fun j hj => ?_
  rw [hiHalf, BitVec.getLsbD_extractLsb', getLsbD_halves]
  simp [hj]

/-- A register is its two halves (30_encoding.md R64). -/
@[simp] theorem hiHalf_append_loHalf (r : DWord) : (hiHalf r ++ loHalf r : DWord) = r := by
  refine BitVec.eq_of_getLsbD_eq fun j hj => ?_
  rw [getLsbD_halves, hiHalf, loHalf, BitVec.getLsbD_extractLsb', BitVec.getLsbD_extractLsb']
  by_cases h : j < 32
  · simp [h]
  · have h1 : 32 + (j - 32) = j := by omega
    have h2 : j - 32 < 32 := by omega
    simp only [h, h1, h2, if_false, decide_true, Bool.true_and]

@[simp] theorem loHalf_withLo (r : DWord) (w : Word) : loHalf (withLo r w) = w := loHalf_append _ _
@[simp] theorem hiHalf_withLo (r : DWord) (w : Word) : hiHalf (withLo r w) = hiHalf r := hiHalf_append _ _
@[simp] theorem loHalf_withHi (r : DWord) (w : Word) : loHalf (withHi r w) = loHalf r := loHalf_append _ _
@[simp] theorem hiHalf_withHi (r : DWord) (w : Word) : hiHalf (withHi r w) = w := hiHalf_append _ _

/-- Byte `i` of a half is the byte of the register eight bits a step above the half's start. -/
theorem byteOf_half (r : DWord) (start i : Nat) (h : i < 4) :
    byteOf (r.extractLsb' start 32) i = r.extractLsb' (start + 8 * i) 8 := by
  refine BitVec.eq_of_getLsbD_eq fun j hj => ?_
  simp only [byteOf, BitVec.getLsbD_extractLsb', hj, decide_true, Bool.true_and]
  rw [decide_eq_true (by omega : 8 * i + j < 32), Nat.add_assoc, Bool.true_and]

/-- What a read returns of a half, as bytes of the register. -/
theorem readBytes_half (r : DWord) (start len : Nat) (h : len ≤ 4) :
    readBytes (r.extractLsb' start 32) len = (List.range len).map (fun i => r.extractLsb' (start + 8 * i) 8) := by
  rw [readBytes_eq_map _ _ h]
  exact List.map_congr_left fun i hi => byteOf_half r start i (by have := List.mem_range.mp hi; omega)

/-- Writing both halves of a value, low first, writes the value (30_encoding.md R69). -/
theorem withHi_withLo_halves (r v : DWord) : withHi (withLo r (loHalf v)) (hiHalf v) = v := by simp [withHi]

/-- Writing both halves of a value, high first, writes the value. -/
theorem withLo_withHi_halves (r v : DWord) : withLo (withHi r (hiHalf v)) (loHalf v) = v := by simp [withLo]

/-! ### The delay (42_interrupt_waiter.md R102) -/

/-- Without underflow the delay is the exact difference. -/
theorem delay_toNat_of_le {c m : DWord} (h : m.toNat ≤ c.toNat) : (delay c m).toNat = c.toNat - m.toNat := by
  simp only [delay, BitVec.toNat_sub]
  have := c.isLt
  omega

/-- On underflow the delay wraps by `2^64`. -/
theorem delay_toNat_of_lt {c m : DWord} (h : c.toNat < m.toNat) :
    (delay c m).toNat = 2 ^ 64 - (m.toNat - c.toNat) := by
  simp only [delay, BitVec.toNat_sub]
  have := m.isLt
  omega

/-- Equal registers give the delay 0. -/
@[simp] theorem delay_self (m : DWord) : delay m m = 0 := by simp [delay]

end Sys2Proof.Machine
end

