-- ==== Sys2Proof/Laws/Ops.lean ====
section
/-! SUPPORT. For each shared operation one lemma that says everything it can do, for the proofs to cite instead of
unfolding it. -/

namespace Sys2Proof.Machine

/-! ### The register window -/

/-- A half that is replaced holds the new word (10_state.md R23). -/
@[simp] theorem readHalf_writeHalf_self (h : Half) (w : Word) (s : State) : readHalf h (writeHalf h w s) = w := by
  cases h <;> simp [readHalf, writeHalf]

/-- A write to a TIME half replaces that half of `mtime`; to a CMP half, of `mtimecmp`; and nothing else. -/
theorem writeHalf_eq (h : Half) (w : Word) (s : State) :
    writeHalf h w s = { s with
      mtime := match h with
        | .timeLo => withLo s.mtime w
        | .timeHi => withHi s.mtime w
        | .cmpLo => s.mtime
        | .cmpHi => s.mtime
      mtimecmp := match h with
        | .timeLo => s.mtimecmp
        | .timeHi => s.mtimecmp
        | .cmpLo => withLo s.mtimecmp w
        | .cmpHi => withHi s.mtimecmp w } := by
  cases h <;> rfl

@[simp] theorem writeHalf_wake (h : Half) (w : Word) (s : State) : (writeHalf h w s).wake = s.wake := by cases h <;> rfl
@[simp] theorem writeHalf_T (h : Half) (w : Word) (s : State) : (writeHalf h w s).T = s.T := by cases h <;> rfl
@[simp] theorem writeHalf_irqLog (h : Half) (w : Word) (s : State) : (writeHalf h w s).irqLog = s.irqLog := by
  cases h <;> rfl
@[simp] theorem writeHalf_rsp (h : Half) (w : Word) (s : State) : (writeHalf h w s).rsp = s.rsp := by cases h <;> rfl
@[simp] theorem writeHalf_draws (h : Half) (w : Word) (s : State) : (writeHalf h w s).draws = s.draws := by
  cases h <;> rfl
@[simp] theorem writeHalf_agenda (h : Half) (w : Word) (s : State) : (writeHalf h w s).agenda = s.agenda := by
  cases h <;> rfl

/-- A CMP_HI write replaces the high half and then sets the deadline from the new `mtimecmp` and the stored `mtime`
(40_register_writes.md R84). -/
theorem writeCmpHi_eq (w : Word) (s : State) :
    writeCmpHi w s = { s with
      mtimecmp := withHi s.mtimecmp w
      wake := some (s.T + (delay (withHi s.mtimecmp w) s.mtime).toNat) } := rfl

/-- Arming sets the deadline to `T` plus the delay and changes nothing else (42_interrupt_waiter.md R101). -/
theorem armDeadline_eq (s : State) :
    armDeadline s = { s with wake := some (s.T + (delay s.mtimecmp s.mtime).toNat) } := rfl

/-- Firing delivers the constant at this `T` and clears the slot (42_interrupt_waiter.md R105). -/
theorem fireWaiter_eq (s : State) :
    fireWaiter s = { s with irqLog := s.irqLog ++ [(s.T, irqTxn)], wake := none, waiter := .waiting } := rfl

/-- A short payload takes one free value and a full one none; no other field changes (00_scope.md R10). -/
theorem spendShort_eq (n : Nat) (s : State) :
    spendShort n s = { s with draws := if n < 4 then s.draws + 1 else s.draws } := by
  unfold spendShort
  split <;> rfl

@[simp] theorem spendShort_mtime (n : Nat) (s : State) : (spendShort n s).mtime = s.mtime := by rw [spendShort_eq]
@[simp] theorem spendShort_mtimecmp (n : Nat) (s : State) : (spendShort n s).mtimecmp = s.mtimecmp := by
  rw [spendShort_eq]
@[simp] theorem spendShort_wake (n : Nat) (s : State) : (spendShort n s).wake = s.wake := by rw [spendShort_eq]
@[simp] theorem spendShort_T (n : Nat) (s : State) : (spendShort n s).T = s.T := by rw [spendShort_eq]
@[simp] theorem spendShort_irqLog (n : Nat) (s : State) : (spendShort n s).irqLog = s.irqLog := by rw [spendShort_eq]
@[simp] theorem spendShort_agenda (n : Nat) (s : State) : (spendShort n s).agenda = s.agenda := by rw [spendShort_eq]

/-! ### Enabling conditions -/

/-- ADVANCE is enabled exactly when no pending deadline lies before `T + dt` (42_interrupt_waiter.md R104). -/
theorem advanceEnabled_iff (dt : Nat) (s : State) :
    advanceEnabled dt s = true ↔ ∀ d, s.wake = some d → s.T + dt ≤ d := by
  cases h : s.wake <;> simp [advanceEnabled, h]

/-- FIRE is enabled exactly when the pending notification is due now (42_interrupt_waiter.md R105). -/
theorem fireEnabled_iff (s : State) : fireEnabled s = true ↔ s.wake = some s.T := by simp [fireEnabled]

/-! ### Accesses -/

/-- Everything a write to a defined offset can do: it answers OK after its effect on the assembled word, or the length
is bad and it is refused (40_register_writes.md R80). -/
theorem writeAccess_cases (data : List Byte) (effect : Word → State → State) (s : State) :
    (LegalLength data.length ∧ writeAccess data effect s =
      .next ((effect (scratch data (Config.draw s.draws)) (spendShort data.length s)).setRsp (some (okRsp none)))) ∨
    (¬ LegalLength data.length ∧ writeAccess data effect s = .refused .badLength) := by
  by_cases h : LegalLength data.length
  · exact .inl ⟨h, if_pos (legalLength_iff.mpr h)⟩
  · exact .inr ⟨h, if_neg (mt legalLength_iff.mp h)⟩

/-- Everything a read of a defined offset can do (41_register_reads.md R90). -/
theorem readAccess_cases (len : Nat) (effect : State → State) (h : Half) (s : State) :
    (LegalLength len ∧ readAccess len effect h s =
      .next ((effect s).setRsp (some (okRsp (some (readBytes (readHalf h (effect s)) len)))))) ∨
    (¬ LegalLength len ∧ readAccess len effect h s = .refused .badLength) := by
  by_cases hl : LegalLength len
  · exact .inl ⟨hl, if_pos (legalLength_iff.mpr hl)⟩
  · exact .inr ⟨hl, if_neg (mt legalLength_iff.mp hl)⟩

/-- Everything an access to an undefined offset can do (20_memory.md R52). -/
theorem errorAccess_cases (len : Nat) (s : State) :
    (LegalLength len ∧ errorAccess len s =
      .next { s with draws := s.draws + 1, rsp := some (errorRsp s.draws) }) ∨
    (¬ LegalLength len ∧ errorAccess len s = .refused .badLength) := by
  by_cases h : LegalLength len
  · exact .inl ⟨h, if_pos (legalLength_iff.mpr h)⟩
  · exact .inr ⟨h, if_neg (mt legalLength_iff.mp h)⟩

/-- A write that is answered had a legal length, and left its effect and the answer OK. -/
theorem writeAccess_next {data : List Byte} {effect : Word → State → State} {s t : State}
    (h : writeAccess data effect s = .next t) :
    LegalLength data.length ∧
      t = (effect (scratch data (Config.draw s.draws)) (spendShort data.length s)).setRsp (some (okRsp none)) := by
  obtain ⟨hl, he⟩ | ⟨_, he⟩ := writeAccess_cases data effect s
  · exact ⟨hl, by rw [he] at h; injection h with h; exact h.symm⟩
  · rw [he] at h; cases h

/-- A read that is answered had a legal length, and left its side effect and the half's bytes as the answer. -/
theorem readAccess_next {len : Nat} {effect : State → State} {g : Half} {s t : State}
    (h : readAccess len effect g s = .next t) :
    LegalLength len ∧ t = (effect s).setRsp (some (okRsp (some (readBytes (readHalf g (effect s)) len)))) := by
  obtain ⟨hl, he⟩ | ⟨_, he⟩ := readAccess_cases len effect g s
  · exact ⟨hl, by rw [he] at h; injection h with h; exact h.symm⟩
  · rw [he] at h; cases h

/-- An access to an undefined offset that is answered left only its answer and the count of free values. -/
theorem errorAccess_next {len : Nat} {s t : State} (h : errorAccess len s = .next t) :
    LegalLength len ∧ t = { s with draws := s.draws + 1, rsp := some (errorRsp s.draws) } := by
  obtain ⟨hl, he⟩ | ⟨_, he⟩ := errorAccess_cases len s
  · exact ⟨hl, by rw [he] at h; injection h with h; exact h.symm⟩
  · rw [he] at h; cases h

/-! ### Which stimulus comes next -/

/-- A placed stimulus is taken off the agenda and nothing else changes. -/
theorem takeStimulus_cons {s : State} {st : Stimulus} {rest : List Stimulus} (h : s.agenda = st :: rest) :
    takeStimulus s = (st, { s with agenda := rest }) := by
  simp [takeStimulus, h, State.setAgenda]

/-- With nothing placed the stimulus is a free one, and one more free value has been taken. -/
theorem takeStimulus_nil {s : State} (h : s.agenda = []) :
    takeStimulus s = (Config.schedule s.draws, { s with draws := s.draws + 1 }) := by
  simp [takeStimulus, h, spendDraw, State.setDraws]

end Sys2Proof.Machine
end

