-- ==== Sys2Proof/Laws/Run.lean ====
section
/-! SUPPORT. What a step and a run can do, said once: the two steps of time, the step of the machine, and the induction
over a run. -/

namespace Sys2Proof.Machine

/-- Time that advances was positive and enabled, and moved nothing but `T` (42_interrupt_waiter.md R104). -/
theorem execAdvance_next {dt : Nat} {s t : State} (h : execAdvance dt s = .next t) :
    0 < dt ∧ (∀ d, s.wake = some d → s.T + dt ≤ d) ∧ t = { s with T := s.T + dt } := by
  unfold execAdvance at h
  split at h
  · cases h
  · split at h
    · next h0 he => exact ⟨Nat.pos_of_ne_zero h0, (advanceEnabled_iff dt s).mp he, by injection h with h; exact h.symm⟩
    · cases h

/-- A waiter that fires was due, and did what `fireWaiter_eq` says (42_interrupt_waiter.md R105). -/
theorem execFire_next {s t : State} (h : execFire s = .next t) : s.wake = some s.T ∧ t = fireWaiter s := by
  unfold execFire at h
  split at h
  · next he => exact ⟨(fireEnabled_iff s).mp he, by injection h with h; exact h.symm⟩
  · cases h

/-- A step that answers a next state ran an instruction on what was taken. -/
theorem stepWith_next {o : Offsets} {s t : State} (h : stepWith o s = .next t) :
    ∃ i, decode o (takeStimulus s).1 = .ok i ∧ exec i (takeStimulus s).2 = .next t := by
  unfold stepWith at h
  split at h
  · next i hi => exact ⟨i, hi, h⟩
  · cases h

@[simp] theorem runInstrs_nil (s : State) : runInstrs [] s = .next s := rfl

/-- A run goes on from a next state. -/
theorem runInstrs_cons_of_next {i : Instr} {is : List Instr} {s t : State} (h : exec i s = .next t) :
    runInstrs (i :: is) s = runInstrs is t := by
  simp [runInstrs, h]

/-- A run that completes went through a next state of its first operation. -/
theorem runInstrs_cons_next {i : Instr} {is : List Instr} {s u : State} (h : runInstrs (i :: is) s = .next u) :
    ∃ t, exec i s = .next t ∧ runInstrs is t = .next u := by
  unfold runInstrs at h
  split at h
  · next t ht => exact ⟨t, ht, h⟩
  · cases h
  · cases h

/-- The induction over a run, packaged once: what every operation of the list keeps, the run keeps. -/
theorem runInstrs_induction {P : State → Prop} {ok : Instr → Prop}
    (keep : ∀ i s t, ok i → P s → exec i s = .next t → P t) :
    ∀ (is : List Instr) (s u : State), (∀ i ∈ is, ok i) → P s → runInstrs is s = .next u → P u
  | [], s, u, _, hp, h => by injection h with h; exact h ▸ hp
  | i :: is, s, u, hok, hp, h => by
    obtain ⟨t, ht, hu⟩ := runInstrs_cons_next h
    exact runInstrs_induction keep is t u (fun j hj => hok j (List.mem_cons_of_mem _ hj))
      (keep i s t (hok i (List.mem_cons_self ..)) hp ht) hu

end Sys2Proof.Machine
end

