-- ==== Sys2Proof/Laws/Exec.lean ====
section
/-! SUPPORT. What the notification, time and trace can do under any operation, said once; and the 4-byte operations of
30_encoding.md R69 as equations. -/

namespace Sys2Proof.Machine

/-- Everything an operation can do to the notification slot, the time base and the trace (10_state.md R26, R27, R29): an
operation that neither arms nor is a step of time leaves them; a CMP_HI write arms; ADVANCE moves time; FIRE delivers. -/
theorem exec_notification_cases {i : Instr} {s t : State} (h : exec i s = .next t) :
    (isCmpHiWrite i = false ∧ t.wake = s.wake ∧ t.T = s.T ∧ t.irqLog = s.irqLog) ∨
    (isCmpHiWrite i = true ∧ t.wake = some (s.T + (delay t.mtimecmp t.mtime).toNat) ∧ t.T = s.T ∧
      t.irqLog = s.irqLog) ∨
    (∃ dt, i = .advance dt ∧ 0 < dt ∧ (∀ d, s.wake = some d → s.T + dt ≤ d) ∧ t = { s with T := s.T + dt }) ∨
    (i = .fire ∧ s.wake = some s.T ∧ t = fireWaiter s) := by
  cases i with
  | wrTimeLo data => obtain ⟨-, rfl⟩ := writeAccess_next h; exact .inl ⟨rfl, by simp, by simp, by simp⟩
  | wrTimeHi data => obtain ⟨-, rfl⟩ := writeAccess_next h; exact .inl ⟨rfl, by simp, by simp, by simp⟩
  | wrCmpLo data => obtain ⟨-, rfl⟩ := writeAccess_next h; exact .inl ⟨rfl, by simp, by simp, by simp⟩
  | wrCmpHi data =>
    obtain ⟨-, rfl⟩ := writeAccess_next h
    exact .inr (.inl ⟨rfl, by simp [writeCmpHi_eq], by simp [writeCmpHi_eq], by simp [writeCmpHi_eq]⟩)
  | rdTimeLo len => obtain ⟨-, rfl⟩ := readAccess_next h; exact .inl ⟨rfl, rfl, rfl, rfl⟩
  | rdTimeHi len => obtain ⟨-, rfl⟩ := readAccess_next h; exact .inl ⟨rfl, rfl, rfl, rfl⟩
  | rdCmpLo len => obtain ⟨-, rfl⟩ := readAccess_next h; exact .inl ⟨rfl, rfl, rfl, rfl⟩
  | rdCmpHi len => obtain ⟨-, rfl⟩ := readAccess_next h; exact .inl ⟨rfl, rfl, rfl, rfl⟩
  | wrInvalid addr data => obtain ⟨-, rfl⟩ := errorAccess_next h; exact .inl ⟨rfl, rfl, rfl, rfl⟩
  | rdInvalid addr len => obtain ⟨-, rfl⟩ := errorAccess_next h; exact .inl ⟨rfl, rfl, rfl, rfl⟩
  | fire => exact .inr (.inr (.inr ⟨rfl, execFire_next h⟩))
  | advance dt => exact .inr (.inr (.inl ⟨dt, rfl, execAdvance_next h⟩))

/-- `WR name, v`: a full payload leaves nothing open, so the half takes `v` and no free value is used. -/
theorem exec_wr (h : Half) (v : Word) (s : State) :
    exec (wr h v) s = .next ((match h with
      | .cmpHi => writeCmpHi v s
      | g => writeHalf g v s).setRsp (some (okRsp none))) := by
  cases h <;>
    simp only [wr, exec, execWrTimeLo, execWrTimeHi, execWrCmpLo, execWrCmpHi, writeAccess, wordBytes_length,
      scratch_wordBytes] <;> rfl

/-- `RD name`: the four bytes of the half, after the refresh when the name is TIME_LO. -/
theorem exec_rd (h : Half) (s : State) :
    exec (rd h) s = .next (match h with
      | .timeLo => (refresh s).setRsp (some (okRsp (some (wordBytes (loHalf (now64 s))))))
      | g => s.setRsp (some (okRsp (some (wordBytes (readHalf g s)))))) := by
  cases h <;> rfl

end Sys2Proof.Machine
end

