-- ==== Sys2Proof/Laws/PerInstr.lean ====
section
/-! SUPPORT. Per-instruction laws, one lemma per constructor of `Instr`. Family `EncodedLengthLegal`: the request that
asks for a well-formed access has a length the block gives a meaning (20_memory.md R42), and the two steps with no inbound
encoding are encoded as no request (30_encoding.md R72). -/

namespace Sys2Proof.Laws.EncodedLengthLegal

/-- A stimulus that is no access, or an access of a legal length. -/
def LegalStimulus : Stimulus → Prop
  | .access r => LegalLength r.len
  | .advance dt => 0 < dt
  | .fire => True

/-- The encoding of a well-formed instruction is a stimulus with legal operands. -/
def Statement (i : Instr) : Prop := ∀ o : Offsets, i.WellFormed o → LegalStimulus (encode o i)

theorem wrTimeLo (data : List Byte) : Statement (.wrTimeLo data) := fun _ h => legalLength_iff.mp h
theorem wrTimeHi (data : List Byte) : Statement (.wrTimeHi data) := fun _ h => legalLength_iff.mp h
theorem wrCmpLo (data : List Byte) : Statement (.wrCmpLo data) := fun _ h => legalLength_iff.mp h
theorem wrCmpHi (data : List Byte) : Statement (.wrCmpHi data) := fun _ h => legalLength_iff.mp h
theorem rdTimeLo (len : Nat) : Statement (.rdTimeLo len) := fun _ h => legalLength_iff.mp h
theorem rdTimeHi (len : Nat) : Statement (.rdTimeHi len) := fun _ h => legalLength_iff.mp h
theorem rdCmpLo (len : Nat) : Statement (.rdCmpLo len) := fun _ h => legalLength_iff.mp h
theorem rdCmpHi (len : Nat) : Statement (.rdCmpHi len) := fun _ h => legalLength_iff.mp h
theorem wrInvalid (addr : Addr) (data : List Byte) : Statement (.wrInvalid addr data) :=
  fun _ h => legalLength_iff.mp ((Bool.and_eq_true _ _).mp h).1
theorem rdInvalid (addr : Addr) (len : Nat) : Statement (.rdInvalid addr len) :=
  fun _ h => legalLength_iff.mp ((Bool.and_eq_true _ _).mp h).1
theorem fire : Statement .fire := fun _ _ => trivial
theorem advance (dt : Nat) : Statement (.advance dt) := fun _ h =>
  (of_decide_eq_true (show decide (0 < dt) = true from h) : 0 < dt)

end Sys2Proof.Laws.EncodedLengthLegal
end

