-- ==== Sys2Proof/Tests/Slice0.lean ====
section
/-! SUPPORT. Named tests. Expected values are the spec's: the vectors V<n> of spec/95_test_vectors.md, the rows of
spec/opcode_table.json and the examples of the rules; then one witness of the hypotheses of each statement. -/

namespace Sys2Proof.Tests

open Sys2Proof.Machine

/-! ### Helpers -/

/-- The state a test starts in: `(mtime, mtimecmp, wake, T)` as 95_test_vectors.md writes it. -/
def start (mtime mtimecmp : DWord) (wake : Option Nat) (T : Nat) : State :=
  ((((State.resetAt T).setMtime mtime).setMtimecmp mtimecmp).setWake wake)

/-- `(mtime, mtimecmp, wake, T)` after a step, `none` where it stopped. -/
def after (o : Host.Outcome State Fault Refusal) : Option (DWord × DWord × Option Nat × Nat) :=
  match o with
  | .next s => some (s.mtime, s.mtimecmp, s.wake, s.T)
  | .fault _ => none
  | .refused _ => none

/-- Status and data of the answer after a step. -/
def answer (o : Host.Outcome State Fault Refusal) : Option (Status × Option (List Byte)) :=
  match o with
  | .next s => s.rsp.map (fun r => (r.status, r.rdata))
  | .fault _ => none
  | .refused _ => none

/-- The fault a step stopped with. -/
def faultOf (o : Host.Outcome State Fault Refusal) : Option Fault :=
  match o with
  | .fault f => some f
  | .next _ => none
  | .refused _ => none

/-- The refusal a step stopped with. -/
def refusalIn (o : Host.Outcome State Fault Refusal) : Option Refusal :=
  match o with
  | .refused r => some r
  | .next _ => none
  | .fault _ => none

/-! ### WellFormed: an ill-formed term for each check -/

/-- 00_scope.md R6: the defaults meet all three constraints. -/
theorem test_wf_default_offsets : defaultOffsets.WellFormed := by decide
/-- Two equal offsets are refused. -/
theorem test_wf_refuses_equal_offsets : ¬ Offsets.WellFormed ⟨0x0, 0x4, 0x4, 0xC⟩ := by decide
/-- An offset that is no multiple of 4 is refused. -/
theorem test_wf_refuses_misaligned_offset : ¬ Offsets.WellFormed ⟨0x0, 0x4, 0x8, 0xD⟩ := by decide
/-- `0x20` may not be defined. -/
theorem test_wf_refuses_offset_0x20 : ¬ Offsets.WellFormed ⟨0x20, 0x4, 0x8, 0xC⟩ := by decide
/-- A write of no byte is refused, one after another in each write. -/
theorem test_wf_refuses_empty_payload :
    ¬ (Instr.wrTimeLo []).WellFormed defaultOffsets ∧ ¬ (Instr.wrTimeHi []).WellFormed defaultOffsets ∧
    ¬ (Instr.wrCmpLo []).WellFormed defaultOffsets ∧ ¬ (Instr.wrCmpHi []).WellFormed defaultOffsets ∧
    ¬ (Instr.wrInvalid 0x20 []).WellFormed defaultOffsets := by decide
/-- A read of five bytes is refused. -/
theorem test_wf_refuses_long_read :
    ¬ (Instr.rdTimeLo 5).WellFormed defaultOffsets ∧ ¬ (Instr.rdTimeHi 5).WellFormed defaultOffsets ∧
    ¬ (Instr.rdCmpLo 5).WellFormed defaultOffsets ∧ ¬ (Instr.rdCmpHi 5).WellFormed defaultOffsets ∧
    ¬ (Instr.rdInvalid 0x20 5).WellFormed defaultOffsets := by decide
/-- An INVALID operation at a defined offset is refused. -/
theorem test_wf_refuses_invalid_at_defined_offset :
    ¬ (Instr.wrInvalid 0xC [1]).WellFormed defaultOffsets ∧ ¬ (Instr.rdInvalid 0x0 4).WellFormed defaultOffsets := by
  decide
/-- ADVANCE(0) is refused; FIRE has no operand to check. -/
theorem test_wf_refuses_zero_advance :
    ¬ (Instr.advance 0).WellFormed defaultOffsets ∧ Instr.fire.WellFormed defaultOffsets := by decide

/-! ### Decode: words written out from 30_encoding.md R68, R71 (bit 64 the command, bits 63:0 the offset) -/

theorem test_decode_wrTimeLo : decodeTableWord 72 (2 ^ 64 + 0x0) = some (.wrTimeLo [0, 0, 0, 0]) := by decide
theorem test_decode_wrTimeHi : decodeTableWord 72 (2 ^ 64 + 0x4) = some (.wrTimeHi [0, 0, 0, 0]) := by decide
theorem test_decode_wrCmpLo : decodeTableWord 72 (2 ^ 64 + 0x8) = some (.wrCmpLo [0, 0, 0, 0]) := by decide
theorem test_decode_wrCmpHi : decodeTableWord 72 (2 ^ 64 + 0xC) = some (.wrCmpHi [0, 0, 0, 0]) := by decide
theorem test_decode_rdTimeLo : decodeTableWord 72 0x0 = some (.rdTimeLo 4) := by decide
theorem test_decode_rdTimeHi : decodeTableWord 72 0x4 = some (.rdTimeHi 4) := by decide
theorem test_decode_rdCmpLo : decodeTableWord 72 0x8 = some (.rdCmpLo 4) := by decide
theorem test_decode_rdCmpHi : decodeTableWord 72 0xC = some (.rdCmpHi 4) := by decide
/-- V12: high offset bits are not ignored. -/
theorem test_decode_wrInvalid :
    decodeTableWord 72 (2 ^ 64 + 0x100000000) = some (.wrInvalid 0x100000000 [0, 0, 0, 0]) := by decide
/-- 95_test_vectors.md, `RD @0x20`. -/
theorem test_decode_rdInvalid : decodeTableWord 72 0x20 = some (.rdInvalid 0x20 4) := by decide
/-- 30_encoding.md R68: bit 31 set and code 7. -/
theorem test_decode_fire : decodeTableWord 32 (2 ^ 31 + 7) = some .fire := by decide
/-- The ENV row, match 0 (30_encoding.md R71; log entry 8). -/
theorem test_decode_advance : decodeTableWord 8 0 = some (.advance 1) := by decide
/-- Bits above the selector are no request. -/
theorem test_decode_refuses_wide_word : decodeTableWord 72 (2 ^ 65) = none := by decide
/-- V14: a length of 0 or 8 is REFUSED; so is ADVANCE(0). -/
theorem test_decode_refuses_by_name :
    decode defaultOffsets (.access (.read 0x0 0)) = .error .badLength ∧
    decode defaultOffsets (.access (.write 0xC [0, 0, 0, 0, 0, 0, 0, 0])) = .error .badLength ∧
    decode defaultOffsets (.advance 0) = .error .zeroAdvance := ⟨rfl, rfl, rfl⟩
/-- Every row's word runs as the first step after reset. -/
theorem test_rows_run_first :
    ([(72, 2 ^ 64), (72, 2 ^ 64 + 4), (72, 2 ^ 64 + 8), (72, 2 ^ 64 + 12), (72, 0), (72, 4), (72, 8), (72, 12),
      (72, 2 ^ 64 + 32), (72, 32), (32, 2 ^ 31 + 7), (8, 0)].all
      (fun p => (after (step (State.reset.withFetchWord p.1 p.2))).isSome)) = true := by decide

/-! ### Writes (vectors of 95_test_vectors.md) -/

/-- V1. -/
theorem test_wrTimeLo_V1 :
    after (exec (.wrTimeLo [0xDD, 0xCC, 0xBB, 0xAA]) (start 0x1122334455667788 0 none 10)) =
      some (0x11223344AABBCCDD, 0, none, 10) := by decide
/-- V13: a short write keeps the payload in the low bytes and replaces nothing of the other half, whatever is drawn. -/
theorem test_wrTimeLo_V13 :
    (exec (.wrTimeLo [0x34, 0x12]) (start 0xAAAAAAAABBBBBBBB 0 none 0)) =
      .next { start (0xAAAAAAAA#32 ++ scratch [0x34, 0x12] (Config.draw 0)) 0 none 0 with
        draws := 1, rsp := some { status := .ok, rdata := none, latency := 0 } } ∧
    byteOf (scratch [0x34, 0x12] (Config.draw 0)) 0 = 0x34 ∧ byteOf (scratch [0x34, 0x12] (Config.draw 0)) 1 = 0x12 :=
  ⟨rfl, byteOf_scratch _ _ 0 (by decide) (by decide), byteOf_scratch _ _ 1 (by decide) (by decide)⟩
/-- V2. -/
theorem test_wrTimeHi_V2 :
    after (exec (.wrTimeHi [0xDD, 0xCC, 0xBB, 0xAA]) (start 0x1122334455667788 0 none 10)) =
      some (0xAABBCCDD55667788, 0, none, 10) := by decide
/-- V3: the deadline does not move. -/
theorem test_wrCmpLo_V3 :
    after (exec (.wrCmpLo [0x64, 0, 0, 0]) (start 0 0x100000000 (some 900) 100)) =
      some (0, 0x100000064, some 900, 100) := by decide
/-- V15: byte order of a payload. -/
theorem test_wrCmpLo_V15 :
    after (exec (.wrCmpLo [0x07, 0x00, 0x00, 0x80]) (start 0 0 none 0)) = some (0, 0x80000007, none, 0) := by decide
/-- V4. -/
theorem test_wrCmpHi_V4 :
    after (exec (.wrCmpHi [2, 0, 0, 0]) (start 0x10 0x100 none 1000)) =
      some (0x10, 0x200000100, some 8589935832, 1000) := by decide
/-- V6: underflow wraps and is not reported. -/
theorem test_wrCmpHi_V6 :
    after (exec (.wrCmpHi [0, 0, 0, 0]) (start 0x200 0x700000100 none 5)) =
      some (0x200, 0x100, some 18446744073709551365, 5) ∧
    answer (exec (.wrCmpHi [0, 0, 0, 0]) (start 0x200 0x700000100 none 5)) = some (.ok, none) := by decide
/-- V10. -/
theorem test_wrInvalid_V10 :
    after (exec (.wrInvalid 0x20 [0xFF, 0xFF, 0xFF, 0xFF]) (start 5 9 (some 40) 7)) = some (5, 9, some 40, 7) ∧
    answer (exec (.wrInvalid 0x20 [0xFF, 0xFF, 0xFF, 0xFF]) (start 5 9 (some 40) 7)) = some (.addressError, none) := by
  decide

/-! ### Reads -/

/-- V20: the refresh replaces both halves. -/
theorem test_rdTimeLo_V20 :
    after (exec (.rdTimeLo 4) (start 0xDEADBEEF00000000 0 none 0x123456789)) =
      some (0x123456789, 0, none, 0x123456789) ∧
    answer (exec (.rdTimeLo 4) (start 0xDEADBEEF00000000 0 none 0x123456789)) =
      some (.ok, some [0x89, 0x67, 0x45, 0x23]) := by decide
/-- V24: the clock is `T` modulo `2^64`. -/
theorem test_rdTimeLo_V24 :
    after (exec (.rdTimeLo 4) (start 0 0 none 18446744073709551621)) = some (5, 0, none, 18446744073709551621) := by
  decide
/-- V22: no refresh. -/
theorem test_rdTimeHi_V22 :
    after (exec (.rdTimeHi 4) (start 0xDEADBEEF00000000 0 none 0x500000000)) =
      some (0xDEADBEEF00000000, 0, none, 0x500000000) ∧
    answer (exec (.rdTimeHi 4) (start 0xDEADBEEF00000000 0 none 0x500000000)) =
      some (.ok, some [0xEF, 0xBE, 0xAD, 0xDE]) := by decide
/-- V28: a short read returns the low bytes. -/
theorem test_rdTimeHi_V28 :
    answer (exec (.rdTimeHi 2) (start 0xDEADBEEF00000000 0x100 none 0)) = some (.ok, some [0xEF, 0xBE]) := by decide
/-- V26. -/
theorem test_rdCmpLo_V26 :
    answer (exec (.rdCmpLo 4) (start 7 0x200000100 (some 60) 50)) = some (.ok, some [0, 1, 0, 0]) := by decide
/-- V26: a read of CMP_HI does not notify. -/
theorem test_rdCmpHi_V26 :
    answer (exec (.rdCmpHi 4) (start 7 0x200000100 (some 60) 50)) = some (.ok, some [2, 0, 0, 0]) ∧
    after (exec (.rdCmpHi 4) (start 7 0x200000100 (some 60) 50)) = some (7, 0x200000100, some 60, 50) := by decide
/-- V27: no data and no refresh. -/
theorem test_rdInvalid_V27 :
    after (exec (.rdInvalid 0x1 4) (start 5 9 none 77)) = some (5, 9, none, 77) ∧
    answer (exec (.rdInvalid 0x1 4) (start 5 9 none 77)) = some (.addressError, none) := by decide

/-! ### Delay, time and fire -/

/-- V44, V45, V46, V48. -/
theorem test_delay_vectors :
    delay 0x100 0x200 = 0xFFFFFFFFFFFFFF00 ∧ delay 0x100000000 0xFFFFFFFF = 1 ∧
    delay 0x8000000000000000 0x7FFFFFFFFFFFFFFF = 1 ∧ delay 0 0xFFFFFFFFFFFFFFFF = 1 := by decide
/-- V50: up to the deadline. -/
theorem test_advance_V50 : after (exec (.advance 40) (start 0 0 (some 100) 60)) = some (0, 0, some 100, 100) := by decide
/-- V51: not past it. -/
theorem test_advance_V51 : faultOf (exec (.advance 41) (start 0 0 (some 100) 60)) = some .advanceNotEnabled := by decide
/-- V54. -/
theorem test_fire_V54 :
    exec .fire (start 3 4 (some 1100) 1100) = .next { start 3 4 none 1100 with irqLog := [(1100, irqTxn)] } := rfl
/-- V56: not before the deadline. -/
theorem test_fire_V56 : faultOf (exec .fire (start 0 0 (some 100) 99)) = some .fireNotEnabled := by decide

/-! ### Witnesses: a concrete state and operands that meet all the hypotheses of a statement -/

/-- A state with one stimulus placed. -/
def placed (s : State) (st : Stimulus) : State := s.setAgenda [st]

/-- The invariant is decided on a state with an empty trace. -/
theorem inv_of_empty_trace (s : State) (h : s.irqLog = []) (hw : ∀ d, s.wake = some d → s.T ≤ d) : Inv s :=
  ⟨hw, s.waiter_eq_waiting, by simp [h], by simp [h], by simp [h]⟩

/-- For EveryStepKeepsInvariant, with a notification due and FIRE placed. -/
theorem witness_EveryStepKeepsInvariant :
    Inv (placed (start 0 0 (some 9) 9) .fire) ∧
    ∃ t, stepWith defaultOffsets (placed (start 0 0 (some 9) 9) .fire) = .next t :=
  ⟨inv_of_empty_trace _ rfl (fun d h => by injection h with h; exact Nat.le_of_eq h), _, rfl⟩

/-- For DecodeOfEncodeIsIdentity, an INVALID operation among them. -/
theorem witness_DecodeOfEncodeIsIdentity :
    defaultOffsets.WellFormed ∧ (Instr.wrInvalid 0x20 [1]).WellFormed defaultOffsets ∧
    (Instr.rdCmpHi 4).WellFormed defaultOffsets := by decide

/-- For EncodeOfDecodeIsIdentity and DecoderAgreesWithMatchAndMask. -/
theorem witness_decoded_request :
    decode defaultOffsets (.access (.write 0xC [1, 2, 3, 4])) = .ok (.wrCmpHi [1, 2, 3, 4]) := rfl

/-- For DecodeTableIsTotal, both clauses at the least and the greatest length and at an undefined offset. -/
theorem witness_DecodeTableIsTotal :
    defaultOffsets.WellFormed ∧ LegalLength [(0 : Byte)].length ∧ LegalLength [(0 : Byte), 0, 0, 0].length ∧
    LegalLength 1 ∧ LegalLength 4 ∧ ¬ defaultOffsets.Defined 0x20 := by decide

/-- For StepRunsDecodedStimulus and StepRunsExactlyWhenEnabled. -/
theorem witness_StepRunsDecodedStimulus :
    (placed State.reset (.access (.read 0x0 4))).agenda = .access (.read 0x0 4) :: [] ∧
    decode defaultOffsets (.access (.read 0x0 4)) = .ok (.rdTimeLo 4) := ⟨rfl, rfl⟩

/-- For StepWithEmptyAgendaIsFree. -/
theorem witness_StepWithEmptyAgendaIsFree : State.reset.agenda = [] := rfl

/-- For BadLengthIsRefused, each clause at both edges. -/
theorem witness_BadLengthIsRefused :
    (placed State.reset (.access (.read 0x0 5))).agenda = .access (.read 0x0 5) :: [] ∧
    ((BusReq.read 0x0 5).len = 0 ∨ 4 < (BusReq.read 0x0 5).len) ∧
    (([] : List Byte).length = 0 ∨ 4 < ([] : List Byte).length) ∧
    ([(0 : Byte), 0, 0, 0, 0].length = 0 ∨ 4 < [(0 : Byte), 0, 0, 0, 0].length) ∧
    ((0 : Nat) = 0 ∨ 4 < 0) := by decide

/-- For the four write statements and InvalidAccessAnswersAddressError: the least and the greatest length. -/
theorem witness_write_lengths :
    LegalLength [(0x34 : Byte)].length ∧ LegalLength [(0x34 : Byte), 0x12, 0, 0].length := by decide

/-- For WrCmpHiReplacesHighHalfAndArms: the two cases of the delay meet at equal registers. -/
theorem witness_WrCmpHi_delay_cases :
    (0x500000064 : DWord).toNat ≤ (0x500000064 : DWord).toNat ∧ (0x500000063 : DWord).toNat < (0x500000064 : DWord).toNat :=
  by decide

/-- For UndefinedOffsetChangesNothing, each of its two ways to be undefined. -/
theorem witness_UndefinedOffsetChangesNothing :
    (placed State.reset (.access (.write 0x10 [1]))).agenda = .access (.write 0x10 [1]) :: [] ∧
    LegalLength (BusReq.write 0x10 [1]).len ∧ ¬ defaultOffsets.Defined (BusReq.write 0x10 [1]).addr ∧
    defaultOffsets.WellFormed ∧ LegalLength (BusReq.read 0xD 4).len ∧ (BusReq.read 0xD 4).addr.toNat % 4 ≠ 0 := by decide

/-- For the two read statements: the least and the greatest length. -/
theorem witness_read_lengths : LegalLength 1 ∧ LegalLength 4 := by decide

/-- For HalfWriteLeavesOtherHalves and WrittenHalvesReadBackExceptTimeLo. -/
theorem witness_other_half : Half.timeHi ≠ Half.timeLo := by decide

/-- For LowThenHighReadIsOneSnapshot: time crosses a carry between the two reads. -/
theorem witness_LowThenHighReadIsOneSnapshot :
    ∃ t u v, exec (.rdTimeLo 4) (start 0 0 none 0xFFFFFFF0) = .next t ∧
      (∀ i ∈ [Instr.advance 21, Instr.rdCmpLo 4], writesMtime i = false) ∧
      runInstrs [.advance 21, .rdCmpLo 4] t = .next u ∧ exec (.rdTimeHi 4) u = .next v :=
  ⟨_, _, _, rfl, by decide, rfl, rfl⟩

/-- For AdvanceRunsExactlyWhenEnabled: up to the deadline, one past it, and zero. -/
theorem witness_AdvanceRunsExactlyWhenEnabled :
    (0 < 40 ∧ ∀ d, (start 0 0 (some 100) 60).wake = some d → (start 0 0 (some 100) 60).T + 40 ≤ d) ∧
    (0 < 41 ∧ (start 0 0 (some 100) 60).wake = some 100 ∧ 100 < (start 0 0 (some 100) 60).T + 41) ∧ (0 : Nat) = 0 :=
  ⟨⟨by decide, fun d h => by injection h with h; subst h; decide⟩, ⟨by decide, rfl, by decide⟩, rfl⟩

/-- For FireRunsExactlyWhenDue, both clauses. -/
theorem witness_FireRunsExactlyWhenDue :
    (start 0 0 (some 100) 100).wake = some (start 0 0 (some 100) 100).T ∧
    (start 0 0 (some 100) 99).wake ≠ some (start 0 0 (some 100) 99).T := by decide

/-- For OnlyNamedOperationsChangeEachField: a refresh that changes `mtime`, a CMP_HI write that changes `mtimecmp`,
`wake` and the answer, an ADVANCE that changes `T`, a FIRE that changes the trace. -/
theorem witness_OnlyNamedOperationsChangeEachField :
    (∃ t, exec (.rdTimeLo 4) (start 0 0 none 7) = .next t ∧ t.mtime ≠ (start 0 0 none 7).mtime) ∧
    (∃ t, exec (.wrCmpHi [1, 0, 0, 0]) (start 0 0 none 7) = .next t ∧ t.mtimecmp ≠ (start 0 0 none 7).mtimecmp ∧
      t.wake ≠ (start 0 0 none 7).wake ∧ t.rsp ≠ (start 0 0 none 7).rsp) ∧
    (∃ t, exec (.advance 1) (start 0 0 none 7) = .next t ∧ t.T ≠ (start 0 0 none 7).T) ∧
    (∃ t, exec .fire (start 0 0 (some 7) 7) = .next t ∧ t.irqLog ≠ (start 0 0 (some 7) 7).irqLog) :=
  ⟨⟨_, rfl, by decide⟩, ⟨_, rfl, by decide, by decide, by decide⟩, ⟨_, rfl, by decide⟩, ⟨_, rfl, by decide⟩⟩

/-- For ExactlyOneOfFireAndAdvanceRuns, at the deadline and one before it. -/
theorem witness_ExactlyOneOfFireAndAdvanceRuns : Inv (start 0 0 (some 9) 9) ∧ Inv (start 0 0 (some 9) 8) :=
  ⟨inv_of_empty_trace _ rfl (fun d h => by injection h with h; subst h; decide),
    inv_of_empty_trace _ rfl (fun d h => by injection h with h; subst h; decide)⟩

/-- For TimeAndTraceOnlyGrow and DeliveriesNeverExceedNotifications: a run that arms, waits and fires. -/
theorem witness_run_that_fires :
    ∃ t, runInstrs [.wrCmpLo [100, 0, 0, 0], .wrCmpHi [0, 0, 0, 0], .advance 100, .fire] (State.resetAt 0) = .next t :=
  ⟨_, rfl⟩

/-- For DueFireIsTakenOrSuperseded, both clauses: a run that fires, then moves time and may end. -/
theorem witness_DueFireIsTakenOrSuperseded :
    ∃ t, (start 0 0 (some 100) 100).wake = some (start 0 0 (some 100) 100).T ∧
      runInstrs [.rdTimeLo 4, .fire, .advance 1] (start 0 0 (some 100) 100) = .next t ∧
      [Instr.rdTimeLo 4, .fire, .advance 1] = [.rdTimeLo 4, .fire] ++ .advance 1 :: [] ∧ RunMayEnd t :=
  ⟨_, rfl, rfl, rfl, by decide⟩

/-- For DrawCounterMovesOnAtEachUse, its two clauses. -/
theorem witness_DrawCounterMovesOnAtEachUse :
    (∃ t, exec (.wrCmpHi [0]) State.reset = .next t) ∧ [(0 : Byte)].length < 4 ∧
    (∃ t, exec (.rdInvalid 0x20 4) State.reset = .next t) := ⟨⟨_, rfl⟩, by decide, ⟨_, rfl⟩⟩

/-- For OpenValuesAreThoseAtTheDrawCounter: the shortest and the longest short payload with an open byte of each, and the
least and the greatest length of an INVALID access. -/
theorem witness_OpenValuesAreThoseAtTheDrawCounter :
    (1 ≤ [(0 : Byte)].length ∧ [(0 : Byte)].length < 4 ∧ [(0 : Byte)].length ≤ 1 ∧ 1 < 4) ∧
    (1 ≤ [(0 : Byte), 0, 0].length ∧ [(0 : Byte), 0, 0].length < 4 ∧ [(0 : Byte), 0, 0].length ≤ 3 ∧ 3 < 4) ∧
    LegalLength [(0 : Byte)].length ∧ LegalLength [(0 : Byte), 0, 0, 0].length ∧ LegalLength 1 ∧ LegalLength 4 := by decide

/-- For ArmedDeadlineDeliversExactlyOnce: another notification was pending; one run stops short, one fires. -/
theorem witness_ArmedDeadlineDeliversExactlyOnce :
    ∃ t u v, exec (.wrCmpHi [0, 0, 0, 0]) (start 200 300 (some 500) 200) = .next t ∧ t.wake = some 300 ∧
      (∀ i ∈ [Instr.advance 100, Instr.fire, Instr.advance 1], isCmpHiWrite i = false) ∧
      runInstrs [.advance 100] t = .next u ∧ runInstrs [.advance 100, .fire, .advance 1] t = .next v :=
  ⟨_, _, _, rfl, rfl, by decide, rfl, rfl⟩

/-- For PendingDeadlineCanBeReachedAndFired. -/
theorem witness_PendingDeadlineCanBeReachedAndFired :
    (start 0 0 (some 100) 60).wake = some 100 ∧ (start 0 0 (some 100) 60).T < 100 := by decide

/-- For UnarmedTimerNeverDelivers: time passes `mtimecmp` (V61). -/
theorem witness_UnarmedTimerNeverDelivers :
    ∃ t, (start 0 5 none 0).wake = none ∧
      (∀ i ∈ [Instr.advance 1000000000, Instr.rdTimeLo 4], isCmpHiWrite i = false) ∧
      runInstrs [.advance 1000000000, .rdTimeLo 4] (start 0 5 none 0) = .next t := ⟨_, rfl, by decide, rfl⟩

/-- For NotificationIsUnobservable: one state with a notification pending, one without. -/
theorem witness_NotificationIsUnobservable :
    ∃ a b, SameButNotification (start 1 2 (some 50) 3) (start 1 2 none 3) ∧
      runInstrs [.advance 4, .rdTimeLo 4] (start 1 2 (some 50) 3) = .next a ∧
      runInstrs [.advance 4, .rdTimeLo 4] (start 1 2 none 3) = .next b :=
  ⟨_, _, ⟨rfl, rfl, rfl, rfl, rfl, rfl⟩, rfl, rfl⟩

/-- For ZeroDelayFiresBeforeTimeMoves (V5). -/
theorem witness_ZeroDelayFiresBeforeTimeMoves :
    ∃ t, exec (.wrCmpHi [5, 0, 0, 0]) (start 0x500000064 0x64 none 777) = .next t ∧ t.mtimecmp = t.mtime :=
  ⟨_, rfl, by decide⟩

/-- For DueDeadlineMayFireOrBeSuperseded (V58, V59). -/
theorem witness_DueDeadlineMayFireOrBeSuperseded :
    (start 0 100 (some 100) 100).wake = some (start 0 100 (some 100) 100).T ∧
    LegalLength [(0 : Byte), 0, 0, 0].length := by decide

/-- For ArmMakesAbsoluteDeadline, at the edge where the deadline is now. -/
theorem witness_ArmMakesAbsoluteDeadline : (start 0 0 none 5000).T ≤ (5000 : DWord).toNat := by decide

/-- For CompareUpdateCountsFromStoredTime, both clauses where they meet. -/
theorem witness_CompareUpdateCountsFromStoredTime :
    (start 1000 0 none 0).mtime.toNat ≤ (1000 : DWord).toNat ∧ (999 : DWord).toNat < (start 1000 0 none 0).mtime.toNat := by
  decide

/-- V14 at the step: a request of length 0 is refused by name, and so is ADVANCE(0). -/
theorem test_step_refuses_by_name :
    refusalIn (step (placed State.reset (.access (.read 0x0 0)))) = some .badLength ∧
    refusalIn (step (placed State.reset (.advance 0))) = some .zeroAdvance := by decide

end Sys2Proof.Tests
end

/-! ### The step: what a placed stimulus runs (O10) -/

namespace Sys2Proof.Machine

/-- The other direction of `stepWith_next`, and for every outcome: a taken stimulus that decodes is run where it was
taken. -/
theorem stepWith_of_decode_ok {o : Offsets} {s : State} {i : Instr} (hi : decode o (takeStimulus s).1 = .ok i) :
    stepWith o s = exec i (takeStimulus s).2 := by
  simp only [stepWith, hi]

/-- The rule for a placed stimulus, which is the one taken (`takeStimulus_cons`). -/
theorem stepWith_cons_of_decode_ok {o : Offsets} {s : State} {st : Stimulus} {rest : List Stimulus} {i : Instr}
    (hs : s.agenda = st :: rest) (hi : decode o st = .ok i) :
    stepWith o s = exec i { s with agenda := rest } := by
  have taken := takeStimulus_cons hs
  have decoded : decode o (takeStimulus s).1 = .ok i := by rw [taken]; exact hi
  rw [stepWith_of_decode_ok decoded, taken]

/-- Settles O10: the first clause is the rule for a placed stimulus, the second is how `step` is defined. -/
theorem stepRunsDecodedStimulus : Obligations.StepRunsDecodedStimulus :=
  ⟨fun _ _ _ _ _ hs hi => stepWith_cons_of_decode_ok hs hi, fun _ => rfl⟩

end Sys2Proof.Machine

/-! ### What taking a stimulus and what each operation leave as it was -/

namespace Sys2Proof.Machine

/-- Taking the next stimulus touches the agenda and the count of free values, the model's own fields, and no other. -/
theorem takeStimulus_state (s : State) : ∃ a n, (takeStimulus s).2 = { s with agenda := a, draws := n } := by
  cases hs : s.agenda with
  | nil => exact ⟨s.agenda, s.draws + 1, by rw [takeStimulus_nil hs]⟩
  | cons st rest => exact ⟨rest, s.draws, by rw [takeStimulus_cons hs]⟩

/-- The rest of `exec_notification_cases`: which operations can change a register or the answer, and that none changes
the agenda (10_state.md R21, R22). -/
theorem exec_register_answer_cases {i : Instr} {s t : State} (h : exec i s = .next t) :
    (t.mtime = s.mtime ∨ writesMtime i = true) ∧
    (t.mtimecmp = s.mtimecmp ∨ ∃ data, i = .wrCmpLo data ∨ i = .wrCmpHi data) ∧
    (t.rsp = s.rsp ∨ isAccess i = true) ∧
    t.agenda = s.agenda := by
  cases i with
  | wrTimeLo data =>
    obtain ⟨-, rfl⟩ := writeAccess_next h
    exact ⟨.inr rfl, .inl (spendShort_mtimecmp _ _), .inr rfl, spendShort_agenda _ _⟩
  | wrTimeHi data =>
    obtain ⟨-, rfl⟩ := writeAccess_next h
    exact ⟨.inr rfl, .inl (spendShort_mtimecmp _ _), .inr rfl, spendShort_agenda _ _⟩
  | wrCmpLo data =>
    obtain ⟨-, rfl⟩ := writeAccess_next h
    exact ⟨.inl (spendShort_mtime _ _), .inr ⟨data, .inl rfl⟩, .inr rfl, spendShort_agenda _ _⟩
  | wrCmpHi data =>
    obtain ⟨-, rfl⟩ := writeAccess_next h
    exact ⟨.inl (spendShort_mtime _ _), .inr ⟨data, .inr rfl⟩, .inr rfl, spendShort_agenda _ _⟩
  | rdTimeLo len => obtain ⟨-, rfl⟩ := readAccess_next h; exact ⟨.inr rfl, .inl rfl, .inr rfl, rfl⟩
  | rdTimeHi len => obtain ⟨-, rfl⟩ := readAccess_next h; exact ⟨.inl rfl, .inl rfl, .inr rfl, rfl⟩
  | rdCmpLo len => obtain ⟨-, rfl⟩ := readAccess_next h; exact ⟨.inl rfl, .inl rfl, .inr rfl, rfl⟩
  | rdCmpHi len => obtain ⟨-, rfl⟩ := readAccess_next h; exact ⟨.inl rfl, .inl rfl, .inr rfl, rfl⟩
  | wrInvalid addr data => obtain ⟨-, rfl⟩ := errorAccess_next h; exact ⟨.inl rfl, .inl rfl, .inr rfl, rfl⟩
  | rdInvalid addr len => obtain ⟨-, rfl⟩ := errorAccess_next h; exact ⟨.inl rfl, .inl rfl, .inr rfl, rfl⟩
  | fire => obtain ⟨-, rfl⟩ := execFire_next h; exact ⟨.inl rfl, .inl rfl, .inl rfl, rfl⟩
  | advance dt => obtain ⟨-, -, rfl⟩ := execAdvance_next h; exact ⟨.inl rfl, .inl rfl, .inl rfl, rfl⟩

/-- FIRE is no step unless a notification is due now (42_interrupt_waiter.md R105). -/
theorem exec_fire_of_not_due {s : State} (h : s.wake ≠ some s.T) : exec .fire s = .fault .fireNotEnabled :=
  if_neg (mt (fireEnabled_iff s).mp h)

/-- A stored half keeps its word when another half is replaced: the other half of the register by the laws of `withLo`
and `withHi`, a half of the other register because that register is not touched (10_state.md R23). -/
theorem readHalf_writeHalf_of_ne {h g : Half} (hne : g ≠ h) (w : Word) (s : State) :
    readHalf g (writeHalf h w s) = readHalf g s := by
  cases h with
  | timeLo =>
    cases g with
    | timeLo => exact absurd rfl hne
    | timeHi => exact hiHalf_withLo _ _
    | cmpLo => rfl
    | cmpHi => rfl
  | timeHi =>
    cases g with
    | timeLo => exact loHalf_withHi _ _
    | timeHi => exact absurd rfl hne
    | cmpLo => rfl
    | cmpHi => rfl
  | cmpLo =>
    cases g with
    | timeLo => rfl
    | timeHi => rfl
    | cmpLo => exact absurd rfl hne
    | cmpHi => exact hiHalf_withLo _ _
  | cmpHi =>
    cases g with
    | timeLo => rfl
    | timeHi => rfl
    | cmpLo => exact loHalf_withHi _ _
    | cmpHi => exact absurd rfl hne

end Sys2Proof.Machine

/-! ### The invariant of 10_state.md R34 (O3, O4) -/

namespace Sys2Proof.Machine

/-- Where nothing is delivered and time does not go back, the pending deadline is all of the invariant that is left to
show. -/
theorem Inv.of_trace_eq {s t : State} (hs : Inv s) (hlog : t.irqLog = s.irqLog) (hT : s.T ≤ t.T)
    (hwake : ∀ d, t.wake = some d → t.T ≤ d) : Inv t where
  deadline_not_passed := hwake
  waiter_waiting := t.waiter_eq_waiting
  deliveries_constant := by rw [hlog]; exact hs.deliveries_constant
  deliveries_past := by rw [hlog]; exact fun e he => (hs.deliveries_past e he).trans hT
  deliveries_in_order := by rw [hlog]; exact hs.deliveries_in_order

/-- A delivery made now is the constant and, since none lies in the future, the last of the trace. -/
theorem Inv.fireWaiter {s : State} (hs : Inv s) : Inv (fireWaiter s) where
  deadline_not_passed := fun d hd => by cases hd
  waiter_waiting := rfl
  deliveries_constant := fun e he => by
    obtain hold | hnew := List.mem_append.mp he
    · exact hs.deliveries_constant e hold
    · rw [List.mem_singleton.mp hnew]
  deliveries_past := fun e he => by
    obtain hold | hnew := List.mem_append.mp he
    · exact hs.deliveries_past e hold
    · rw [List.mem_singleton.mp hnew]; exact Nat.le_refl s.T
  deliveries_in_order := by
    refine List.pairwise_append.mpr ⟨hs.deliveries_in_order, List.pairwise_singleton _ _, fun a ha b hb => ?_⟩
    rw [List.mem_singleton.mp hb]
    exact hs.deliveries_past a ha

/-- Every operation keeps the invariant. -/
theorem exec_keeps_inv {i : Instr} {s t : State} (hs : Inv s) (h : exec i s = .next t) : Inv t := by
  obtain ⟨-, hwake, hT, hlog⟩ | ⟨-, hwake, hT, hlog⟩ | ⟨dt, -, -, enabled, rfl⟩ | ⟨-, -, rfl⟩ :=
    exec_notification_cases h
  · exact hs.of_trace_eq hlog hT.ge (by rw [hwake, hT]; exact hs.deadline_not_passed)
  · refine hs.of_trace_eq hlog hT.ge fun d hd => ?_
    have armed : s.T + (delay t.mtimecmp t.mtime).toNat = d := Option.some.inj (hwake.symm.trans hd)
    omega
  · exact hs.of_trace_eq rfl (Nat.le_add_right _ _) enabled
  · exact hs.fireWaiter

/-- Taking the next stimulus keeps the invariant. -/
theorem takeStimulus_keeps_inv {s : State} (hs : Inv s) : Inv (takeStimulus s).2 := by
  obtain ⟨a, n, taken⟩ := takeStimulus_state s
  rw [taken]
  exact hs.of_trace_eq rfl (Nat.le_refl _) hs.deadline_not_passed

/-- Settles O4: the invariant passes over taking a stimulus and over the operation it decodes to. -/
theorem everyStepKeepsInvariant : Obligations.EveryStepKeepsInvariant := by
  intro o s t hs h
  obtain ⟨i, -, hexec⟩ := stepWith_next h
  exact exec_keeps_inv (takeStimulus_keeps_inv hs) hexec

/-- Settles O3: nothing is pending and nothing was delivered. -/
theorem resetMeetsInvariant : Obligations.ResetMeetsInvariant := fun _ =>
  { deadline_not_passed := fun _ hd => by cases hd
    waiter_waiting := rfl
    deliveries_constant := fun _ he => absurd he List.not_mem_nil
    deliveries_past := fun _ he => absurd he List.not_mem_nil
    deliveries_in_order := .nil }

end Sys2Proof.Machine

/-! ### Deliveries and notifications counted (O37) -/

namespace Sys2Proof.Machine

/-- The slot holds at most one notification (10_state.md R26). -/
theorem pendingCount_le_one (s : State) : pendingCount s ≤ 1 := by
  unfold pendingCount
  split
  · exact Nat.zero_le 1
  · exact Nat.le_refl 1

theorem pendingCount_of_wake_some {s : State} {d : Nat} (h : s.wake = some d) : pendingCount s = 1 := by
  simp [pendingCount, h]

/-- The count of pending notifications looks at the slot only. -/
theorem pendingCount_congr {s t : State} (h : t.wake = s.wake) : pendingCount t = pendingCount s := by
  simp [pendingCount, h]

/-- One operation: a CMP_HI write adds at most one notification, FIRE turns the pending one into a delivery, and the
others leave both counts. -/
theorem exec_delivery_count {i : Instr} {s t : State} (h : exec i s = .next t) :
    t.irqLog.length + pendingCount t ≤
      s.irqLog.length + pendingCount s + if isCmpHiWrite i = true then 1 else 0 := by
  obtain ⟨-, hwake, -, hlog⟩ | ⟨harm, -, -, hlog⟩ | ⟨dt, -, -, -, rfl⟩ | ⟨-, due, rfl⟩ := exec_notification_cases h
  · rw [hlog, pendingCount_congr hwake]
    exact Nat.le_add_right _ _
  · have := pendingCount_le_one t
    rw [hlog, if_pos harm]
    omega
  · exact Nat.le_add_right _ _
  · have pending : pendingCount s = 1 := pendingCount_of_wake_some due
    have cleared : pendingCount (fireWaiter s) = 0 := rfl
    have delivered : (fireWaiter s).irqLog.length = s.irqLog.length + 1 := List.length_append
    omega

/-- Settles O37, by induction on the operations with `exec_delivery_count` for each. -/
theorem deliveriesNeverExceedNotifications : Obligations.DeliveriesNeverExceedNotifications := by
  intro is
  induction is with
  | nil =>
    intro s t h
    injection h with h
    subst h
    exact Nat.le_add_right _ _
  | cons i is ih =>
    intro s t h
    obtain ⟨u, hi, his⟩ := runInstrs_cons_next h
    have first := exec_delivery_count hi
    have rest := ih u t his
    rw [List.countP_cons]
    omega

end Sys2Proof.Machine

/-! ### What a run cannot tell apart (O38) -/

namespace Sys2Proof.Machine

section
variable {s t : State}

/-! The relation under each update: a visible field is given the same value on both sides; the slot, the waiter and the
trace are given any two values. -/

theorem SameButNotification.setMtime (h : SameButNotification s t) {u v : DWord} (huv : u = v) :
    SameButNotification (s.setMtime u) (t.setMtime v) := { h with mtime_eq := huv }

theorem SameButNotification.setMtimecmp (h : SameButNotification s t) {u v : DWord} (huv : u = v) :
    SameButNotification (s.setMtimecmp u) (t.setMtimecmp v) := { h with mtimecmp_eq := huv }

theorem SameButNotification.setTime (h : SameButNotification s t) {u v : Nat} (huv : u = v) :
    SameButNotification (s.setTime u) (t.setTime v) := { h with time_eq := huv }

theorem SameButNotification.setRsp (h : SameButNotification s t) {u v : Option BusRsp} (huv : u = v) :
    SameButNotification (s.setRsp u) (t.setRsp v) := { h with rsp_eq := huv }

theorem SameButNotification.setDraws (h : SameButNotification s t) {u v : Nat} (huv : u = v) :
    SameButNotification (s.setDraws u) (t.setDraws v) := { h with draws_eq := huv }

theorem SameButNotification.setWake (h : SameButNotification s t) (u v : Option Nat) :
    SameButNotification (s.setWake u) (t.setWake v) := { h with }

theorem SameButNotification.setWaiter (h : SameButNotification s t) (u v : WaiterState) :
    SameButNotification (s.setWaiter u) (t.setWaiter v) := { h with }

theorem SameButNotification.setIrqLog (h : SameButNotification s t) (u v : List (Nat × IrqTxn)) :
    SameButNotification (s.setIrqLog u) (t.setIrqLog v) := { h with }

/-! The relation under each shared operation of Machine/Ops.lean. -/

/-- No half shows a difference. -/
theorem SameButNotification.readHalf_eq (h : SameButNotification s t) (g : Half) : readHalf g s = readHalf g t := by
  cases g with
  | timeLo => exact congrArg loHalf h.mtime_eq
  | timeHi => exact congrArg hiHalf h.mtime_eq
  | cmpLo => exact congrArg loHalf h.mtimecmp_eq
  | cmpHi => exact congrArg hiHalf h.mtimecmp_eq

theorem SameButNotification.writeHalf (h : SameButNotification s t) (g : Half) (w : Word) :
    SameButNotification (writeHalf g w s) (writeHalf g w t) := by
  cases g with
  | timeLo => exact h.setMtime (congrArg (withLo · w) h.mtime_eq)
  | timeHi => exact h.setMtime (congrArg (withHi · w) h.mtime_eq)
  | cmpLo => exact h.setMtimecmp (congrArg (withLo · w) h.mtimecmp_eq)
  | cmpHi => exact h.setMtimecmp (congrArg (withHi · w) h.mtimecmp_eq)

/-- Arming sets the slot, which the relation does not look at. -/
theorem SameButNotification.writeCmpHi (h : SameButNotification s t) (w : Word) :
    SameButNotification (writeCmpHi w s) (writeCmpHi w t) := (h.writeHalf .cmpHi w).setWake _ _

/-- The refresh samples the time, which both sides share. -/
theorem SameButNotification.refresh (h : SameButNotification s t) :
    SameButNotification (refresh s) (refresh t) := h.setMtime (congrArg (BitVec.ofNat 64) h.time_eq)

theorem SameButNotification.spendDraw (h : SameButNotification s t) :
    SameButNotification (spendDraw s) (spendDraw t) := h.setDraws (congrArg (· + 1) h.draws_eq)

theorem SameButNotification.spendShort (h : SameButNotification s t) (n : Nat) :
    SameButNotification (spendShort n s) (spendShort n t) := by
  unfold Machine.spendShort
  split
  · exact h.spendDraw
  · exact h

theorem SameButNotification.fireWaiter (h : SameButNotification s t) :
    SameButNotification (fireWaiter s) (fireWaiter t) := ((h.setIrqLog _ _).setWake _ _).setWaiter _ _

/-! The relation under the three front ends of an access, for the effect of a write and the side effect of a read that
keep it. -/

variable {s' t' : State}

theorem SameButNotification.writeAccess {data : List Byte} {effect : Word → State → State}
    (keep : ∀ {a b : State}, SameButNotification a b → ∀ w, SameButNotification (effect w a) (effect w b))
    (h : SameButNotification s t) (hs : writeAccess data effect s = .next s')
    (ht : writeAccess data effect t = .next t') : SameButNotification s' t' := by
  obtain ⟨-, rfl⟩ := writeAccess_next hs
  obtain ⟨-, rfl⟩ := writeAccess_next ht
  rw [h.draws_eq]
  exact (keep (h.spendShort _) _).setRsp rfl

theorem SameButNotification.readAccess {len : Nat} {effect : State → State} {g : Half}
    (keep : ∀ {a b : State}, SameButNotification a b → SameButNotification (effect a) (effect b))
    (h : SameButNotification s t) (hs : readAccess len effect g s = .next s')
    (ht : readAccess len effect g t = .next t') : SameButNotification s' t' := by
  obtain ⟨-, rfl⟩ := readAccess_next hs
  obtain ⟨-, rfl⟩ := readAccess_next ht
  exact (keep h).setRsp (by rw [(keep h).readHalf_eq])

theorem SameButNotification.errorAccess {len : Nat} (h : SameButNotification s t)
    (hs : errorAccess len s = .next s') (ht : errorAccess len t = .next t') : SameButNotification s' t' := by
  obtain ⟨-, rfl⟩ := errorAccess_next hs
  obtain ⟨-, rfl⟩ := errorAccess_next ht
  exact h.spendDraw.setRsp (by rw [h.draws_eq])

/-- The step of the relation: one operation that completes on both sides keeps it. -/
theorem SameButNotification.exec {i : Instr} (h : SameButNotification s t) (hs : exec i s = .next s')
    (ht : exec i t = .next t') : SameButNotification s' t' := by
  cases i with
  | wrTimeLo data => exact h.writeAccess (·.writeHalf .timeLo) hs ht
  | wrTimeHi data => exact h.writeAccess (·.writeHalf .timeHi) hs ht
  | wrCmpLo data => exact h.writeAccess (·.writeHalf .cmpLo) hs ht
  | wrCmpHi data => exact h.writeAccess (·.writeCmpHi) hs ht
  | rdTimeLo len => exact h.readAccess (·.refresh) hs ht
  | rdTimeHi len => exact h.readAccess id hs ht
  | rdCmpLo len => exact h.readAccess id hs ht
  | rdCmpHi len => exact h.readAccess id hs ht
  | wrInvalid addr data => exact h.errorAccess hs ht
  | rdInvalid addr len => exact h.errorAccess hs ht
  | fire =>
    obtain ⟨-, rfl⟩ := execFire_next hs
    obtain ⟨-, rfl⟩ := execFire_next ht
    exact h.fireWaiter
  | advance dt =>
    obtain ⟨-, -, rfl⟩ := execAdvance_next hs
    obtain ⟨-, -, rfl⟩ := execAdvance_next ht
    exact h.setTime (congrArg (· + dt) h.time_eq)

end

/-- Settles O38, by induction on the operations with `SameButNotification.exec` for each. -/
theorem notificationIsUnobservable : Obligations.NotificationIsUnobservable := by
  intro is
  induction is with
  | nil =>
    intro s t s' t' h hs ht
    injection hs with hs
    injection ht with ht
    exact hs ▸ ht ▸ h
  | cons i is ih =>
    intro s t s' t' h hs ht
    obtain ⟨u, hu, hus⟩ := runInstrs_cons_next hs
    obtain ⟨v, hv, hvt⟩ := runInstrs_cons_next ht
    exact ih u v s' t' (h.exec hu hv) hus hvt

end Sys2Proof.Machine

/-! ### Which operations change a field, and what only grows (O28, O31) -/

namespace Sys2Proof.Machine

/-- Settles O28: each field that changed rules out the cases that leave it. -/
theorem onlyNamedOperationsChangeEachField : Obligations.OnlyNamedOperationsChangeEachField := by
  intro i s t h
  obtain ⟨hmtime, hmtimecmp, hrsp, hagenda⟩ := exec_register_answer_cases h
  have slotTimeTrace : (t.wake ≠ s.wake → isCmpHiWrite i = true ∨ i = .fire) ∧
      (t.T ≠ s.T → ∃ dt, i = .advance dt) ∧ (t.irqLog ≠ s.irqLog → i = .fire) := by
    obtain ⟨-, hwake, hT, hlog⟩ | ⟨harm, -, hT, hlog⟩ | ⟨dt, hi, -, -, rfl⟩ | ⟨hi, -, rfl⟩ :=
      exec_notification_cases h
    · exact ⟨absurd hwake, absurd hT, absurd hlog⟩
    · exact ⟨fun _ => .inl harm, absurd hT, absurd hlog⟩
    · exact ⟨absurd rfl, fun _ => ⟨dt, hi⟩, absurd rfl⟩
    · exact ⟨fun _ => .inr hi, absurd rfl, fun _ => hi⟩
  obtain ⟨hwake, hT, hlog⟩ := slotTimeTrace
  exact ⟨hmtime.resolve_left, hmtimecmp.resolve_left, hwake, hT, hlog, hrsp.resolve_left, hagenda⟩

/-- No operation takes time or a delivery back. -/
theorem exec_time_trace_grow {i : Instr} {s t : State} (h : exec i s = .next t) :
    s.T ≤ t.T ∧ s.irqLog <+: t.irqLog := by
  obtain ⟨-, -, hT, hlog⟩ | ⟨-, -, hT, hlog⟩ | ⟨dt, -, -, -, rfl⟩ | ⟨-, -, rfl⟩ := exec_notification_cases h
  · exact ⟨hT.ge, by rw [hlog]⟩
  · exact ⟨hT.ge, by rw [hlog]⟩
  · exact ⟨Nat.le_add_right _ _, List.prefix_rfl⟩
  · exact ⟨Nat.le_refl _, [(s.T, irqTxn)], rfl⟩

/-- Settles O31: to have grown since the start is kept by every operation, hence along the run. -/
theorem timeAndTraceOnlyGrow : Obligations.TimeAndTraceOnlyGrow := by
  intro is s t h
  refine runInstrs_induction (P := fun u => s.T ≤ u.T ∧ s.irqLog <+: u.irqLog) (ok := fun _ => True)
    ?_ is s t (fun _ _ => trivial) ⟨Nat.le_refl _, List.prefix_rfl⟩ h
  intro i u v _ ⟨hT, hlog⟩ hexec
  obtain ⟨hT', hlog'⟩ := exec_time_trace_grow hexec
  exact ⟨hT.trans hT', hlog.trans hlog'⟩

end Sys2Proof.Machine

/-! ### The reset table and the stored halves (O1, O22) -/

namespace Sys2Proof.Machine

/-- Settles O1: the fields by the table of 10_state.md R30; FIRE is no step because nothing is pending. -/
theorem resetLeavesSpecValues : Obligations.ResetLeavesSpecValues := by
  refine ⟨fun t0 => ⟨rfl, rfl, rfl, rfl, rfl, rfl, ?_⟩, rfl⟩
  have idle : (State.resetAt t0).wake ≠ some (State.resetAt t0).T := fun due => by cases due
  exact exec_fire_of_not_due idle

/-- Settles O22: the half that is replaced, and every other one. -/
theorem halfWriteLeavesOtherHalves : Obligations.HalfWriteLeavesOtherHalves :=
  fun h _ w s => ⟨readHalf_writeHalf_self h w s, fun hne => readHalf_writeHalf_of_ne hne w s⟩

end Sys2Proof.Machine

/-! ### Accesses at an undefined offset (O19) -/

namespace Sys2Proof

/-- The contrapositive of `aligned_of_defined`: a misaligned offset is an undefined one (20_memory.md R44). -/
theorem Offsets.WellFormed.undefined_of_misaligned {o : Offsets} {a : Addr} (h : o.WellFormed)
    (ha : a.toNat % 4 ≠ 0) : ¬ o.Defined a := mt (aligned_of_defined h) ha

/-- A WRITE at an undefined offset selects the row WR_INVALID (30_encoding.md R65). -/
theorem decode_write_of_undefined {o : Offsets} {a : Addr} {data : List Byte} (hl : LegalLength data.length)
    (ha : ¬ o.Defined a) : decode o (.access (.write a data)) = .ok (.wrInvalid a data) := by
  have unnamed : halfAt o a = none := (halfAt_eq_none_iff o a).mpr ha
  simp [decode, decodeBus, BusReq.len, hl, decodeWrite, unnamed]

/-- A READ at an undefined offset selects the row RD_INVALID (30_encoding.md R65). -/
theorem decode_read_of_undefined {o : Offsets} {a : Addr} {len : Nat} (hl : LegalLength len)
    (ha : ¬ o.Defined a) : decode o (.access (.read a len)) = .ok (.rdInvalid a len) := by
  have unnamed : halfAt o a = none := (halfAt_eq_none_iff o a).mpr ha
  simp [decode, decodeBus, BusReq.len, hl, decodeRead, unnamed]

end Sys2Proof

namespace Sys2Proof.Machine

/-- The case of `errorAccess_cases` at a legal length. -/
theorem errorAccess_of_legal {len : Nat} (hl : LegalLength len) (s : State) :
    errorAccess len s = .next { s with draws := s.draws + 1, rsp := some (errorRsp s.draws) } := by
  obtain ⟨-, answered⟩ | ⟨illegal, -⟩ := errorAccess_cases len s
  · exact answered
  · exact absurd hl illegal

/-- READ or WRITE, a placed request at an undefined offset runs the one access that answers ADDRESS_ERROR, in the state
it is taken in (20_memory.md R52). -/
theorem stepWith_of_undefined {o : Offsets} {s : State} {r : BusReq} {rest : List Stimulus}
    (hs : s.agenda = .access r :: rest) (hl : LegalLength r.len) (hr : ¬ o.Defined r.addr) :
    stepWith o s = errorAccess r.len { s with agenda := rest } := by
  cases r with
  | write a data => exact stepWith_cons_of_decode_ok hs (decode_write_of_undefined hl hr)
  | read a len => exact stepWith_cons_of_decode_ok hs (decode_read_of_undefined hl hr)

/-- Settles O19: a misaligned offset is an undefined one, and the access there leaves its answer only, with the latency
that is free at the present count of draws. -/
theorem undefinedOffsetChangesNothing : Obligations.UndefinedOffsetChangesNothing := by
  intro o s r rest hs hl hr
  have undefined : ¬ o.Defined r.addr := hr.elim id fun ⟨wf, misaligned⟩ => wf.undefined_of_misaligned misaligned
  refine ⟨Config.errorLatency s.draws, s.draws + 1, ?_⟩
  rw [stepWith_of_undefined hs hl undefined, errorAccess_of_legal hl]
  rfl

end Sys2Proof.Machine

/-! ### Decode and encode (O5, O6, O7) -/

namespace Sys2Proof

/-- The row of 30_encoding.md R65 that a request selects, given what its offset names: `decodeWrite` and `decodeRead` as
one table over the command and the half. `decode_access_of_legal` ties it to the decoder. -/
def BusReq.row : BusReq → Option Half → Instr
  | .write _ data, some .timeLo => .wrTimeLo data
  | .write _ data, some .timeHi => .wrTimeHi data
  | .write _ data, some .cmpLo => .wrCmpLo data
  | .write _ data, some .cmpHi => .wrCmpHi data
  | .write a data, none => .wrInvalid a data
  | .read _ len, some .timeLo => .rdTimeLo len
  | .read _ len, some .timeHi => .rdTimeHi len
  | .read _ len, some .cmpLo => .rdCmpLo len
  | .read _ len, some .cmpHi => .rdCmpHi len
  | .read a len, none => .rdInvalid a len

/-- A WRITE decodes to its entry of the table. -/
theorem decodeWrite_eq_row (o : Offsets) (a : Addr) (data : List Byte) :
    decodeWrite o a data = (BusReq.write a data).row (halfAt o a) := by
  unfold decodeWrite
  split <;> next named => rw [named]; rfl

/-- A READ decodes to its entry of the table. -/
theorem decodeRead_eq_row (o : Offsets) (a : Addr) (len : Nat) :
    decodeRead o a len = (BusReq.read a len).row (halfAt o a) := by
  unfold decodeRead
  split <;> next named => rw [named]; rfl

/-- A request with a legal length decodes to the row its command and offset select (30_encoding.md R65). -/
theorem decode_access_of_legal {o : Offsets} {r : BusReq} (hl : LegalLength r.len) :
    decode o (.access r) = .ok (r.row (halfAt o r.addr)) := by
  have legal : legalLength r.len = true := legalLength_iff.mpr hl
  cases r with
  | write a data => simp only [decode, decodeBus, legal, if_true, decodeWrite_eq_row, BusReq.addr]
  | read a len => simp only [decode, decodeBus, legal, if_true, decodeRead_eq_row, BusReq.addr]

/-- A request with a bad length decodes to no operation (30_encoding.md R67). -/
theorem decode_access_of_illegal {o : Offsets} {r : BusReq} (hl : ¬ LegalLength r.len) :
    decode o (.access r) = .error .badLength := if_neg (mt legalLength_iff.mp hl)

/-- The inversion of the decoder on requests: what decodes had a legal length and is the row selected. -/
theorem decode_access_ok {o : Offsets} {r : BusReq} {i : Instr} (h : decode o (.access r) = .ok i) :
    LegalLength r.len ∧ i = r.row (halfAt o r.addr) := by
  by_cases hl : LegalLength r.len
  · rw [decode_access_of_legal hl] at h
    injection h with h
    exact ⟨hl, h.symm⟩
  · rw [decode_access_of_illegal hl] at h
    cases h

/-- The decoder where the half is known, the form in which each row of the table is read off. -/
theorem decode_access_of_halfAt {o : Offsets} {r : BusReq} {h : Option Half} (hl : LegalLength r.len)
    (hh : halfAt o r.addr = h) : decode o (.access r) = .ok (r.row h) := hh ▸ decode_access_of_legal hl

/-- WR_INVALID is well-formed at a legal length and an undefined offset. -/
theorem wellFormed_wrInvalid_iff {o : Offsets} {a : Addr} {data : List Byte} :
    (Instr.wrInvalid a data).WellFormed o ↔ LegalLength data.length ∧ ¬ o.Defined a := by
  simp [Instr.WellFormed, Instr.wf]

/-- RD_INVALID is well-formed at a legal length and an undefined offset. -/
theorem wellFormed_rdInvalid_iff {o : Offsets} {a : Addr} {len : Nat} :
    (Instr.rdInvalid a len).WellFormed o ↔ LegalLength len ∧ ¬ o.Defined a := by
  simp [Instr.WellFormed, Instr.wf]

/-- Settles O5: the encoding of an access carries its row's own offset, which names that row's half because the four
offsets are distinct; the encoding of an INVALID access carries an undefined offset, which names none. -/
theorem decodeOfEncodeIsIdentity : Obligations.DecodeOfEncodeIsIdentity := by
  intro o i wf hi
  cases i with
  | wrTimeLo data => exact decode_access_of_halfAt (h := some .timeLo) (legalLength_iff.mp hi) (halfAt_timeLo o)
  | wrTimeHi data => exact decode_access_of_halfAt (h := some .timeHi) (legalLength_iff.mp hi) (halfAt_timeHi wf)
  | wrCmpLo data => exact decode_access_of_halfAt (h := some .cmpLo) (legalLength_iff.mp hi) (halfAt_cmpLo wf)
  | wrCmpHi data => exact decode_access_of_halfAt (h := some .cmpHi) (legalLength_iff.mp hi) (halfAt_cmpHi wf)
  | rdTimeLo len => exact decode_access_of_halfAt (h := some .timeLo) (legalLength_iff.mp hi) (halfAt_timeLo o)
  | rdTimeHi len => exact decode_access_of_halfAt (h := some .timeHi) (legalLength_iff.mp hi) (halfAt_timeHi wf)
  | rdCmpLo len => exact decode_access_of_halfAt (h := some .cmpLo) (legalLength_iff.mp hi) (halfAt_cmpLo wf)
  | rdCmpHi len => exact decode_access_of_halfAt (h := some .cmpHi) (legalLength_iff.mp hi) (halfAt_cmpHi wf)
  | wrInvalid a data =>
    obtain ⟨hl, undefined⟩ := wellFormed_wrInvalid_iff.mp hi
    exact decode_write_of_undefined hl undefined
  | rdInvalid a len =>
    obtain ⟨hl, undefined⟩ := wellFormed_rdInvalid_iff.mp hi
    exact decode_read_of_undefined hl undefined
  | fire => rfl
  | advance dt =>
    have positive : 0 < dt := of_decide_eq_true hi
    exact if_neg positive.ne'

/-- The offset of a half (20_memory.md R41). -/
def Half.offset (o : Offsets) : Half → Addr
  | .timeLo => o.timeLo
  | .timeHi => o.timeHi
  | .cmpLo => o.cmpLo
  | .cmpHi => o.cmpHi

/-- A half is named only by its own offset: `halfAt_some`, through the name of that offset. -/
theorem eq_offset_of_halfAt {o : Offsets} {a : Addr} {g : Half} (hh : halfAt o a = some g) : a = g.offset o := by
  cases g <;> exact halfAt_some hh

/-- Whatever the offsets, the row a request selects is encoded as that request: a half is named only by its own offset
(`eq_offset_of_halfAt`), and an INVALID row keeps the offset. -/
theorem encode_row (o : Offsets) (r : BusReq) : encode o (r.row (halfAt o r.addr)) = .access r := by
  cases hh : halfAt o r.addr with
  | none => cases r <;> rfl
  | some g =>
    have offset : r.addr = g.offset o := eq_offset_of_halfAt hh
    cases r with
    | write a data => obtain rfl : a = g.offset o := offset; cases g <;> rfl
    | read a len => obtain rfl : a = g.offset o := offset; cases g <;> rfl

/-- The row a request of a legal length selects is well-formed. -/
theorem wellFormed_row {o : Offsets} {r : BusReq} (hl : LegalLength r.len) :
    (r.row (halfAt o r.addr)).WellFormed o := by
  cases hh : halfAt o r.addr with
  | none =>
    have undefined : ¬ o.Defined r.addr := (halfAt_eq_none_iff o r.addr).mp hh
    cases r with
    | write a data => exact wellFormed_wrInvalid_iff.mpr ⟨hl, undefined⟩
    | read a len => exact wellFormed_rdInvalid_iff.mpr ⟨hl, undefined⟩
  | some g => cases r <;> cases g <;> exact legalLength_iff.mpr hl

/-- Settles O6: for a request by `encode_row` and `wellFormed_row`; ADVANCE and FIRE stand for themselves. -/
theorem encodeOfDecodeIsIdentity : Obligations.EncodeOfDecodeIsIdentity := by
  intro o st i h
  cases st with
  | access r =>
    obtain ⟨hl, rfl⟩ := decode_access_ok h
    exact ⟨encode_row o r, wellFormed_row hl⟩
  | advance dt =>
    by_cases zero : dt = 0
    · simp [decode, zero] at h
    · obtain rfl : Instr.advance dt = i := by simpa [decode, zero] using h
      exact ⟨rfl, decide_eq_true (Nat.pos_of_ne_zero zero)⟩
  | fire =>
    injection h with h
    subst h
    exact ⟨rfl, rfl⟩

/-- Settles O7: each line of the table is O5 at one row, whose encoding is that line's request. -/
theorem decodeTableIsTotal : Obligations.DecodeTableIsTotal := by
  intro o wf
  have identity : ∀ i : Instr, i.WellFormed o → decode o (encode o i) = .ok i :=
    fun i hi => decodeOfEncodeIsIdentity o i wf hi
  constructor
  · intro data hl
    have legal : legalLength data.length = true := legalLength_iff.mpr hl
    exact ⟨identity (.wrTimeLo data) legal, identity (.wrTimeHi data) legal, identity (.wrCmpLo data) legal,
      identity (.wrCmpHi data) legal, fun a ha => identity (.wrInvalid a data) (wellFormed_wrInvalid_iff.mpr ⟨hl, ha⟩)⟩
  · intro len hl
    have legal : legalLength len = true := legalLength_iff.mpr hl
    exact ⟨identity (.rdTimeLo len) legal, identity (.rdTimeHi len) legal, identity (.rdCmpLo len) legal,
      identity (.rdCmpHi len) legal, fun a ha => identity (.rdInvalid a len) (wellFormed_rdInvalid_iff.mpr ⟨hl, ha⟩)⟩

end Sys2Proof

/-! ### The table of match and mask, and written-out words (O8, O9) -/

namespace Sys2Proof

/-- The low 64 bits of a selector are the offset (30_encoding.md R71). -/
theorem setWidth_selector (r : BusReq) : (selector r).setWidth 64 = r.addr := BitVec.setWidth_append_eq_right

/-- Under the mask of the INVALID rows a selector keeps its command bit alone. -/
theorem selector_and_commandMask (c : Cmd) (a : Addr) : (c.bit ++ a) &&& 0x10000000000000000#65 = c.bit ++ 0#64 :=
  calc (c.bit ++ a) &&& 0x10000000000000000#65
      = (c.bit ++ a) &&& (BitVec.allOnes 1 ++ 0#64) := rfl
    _ = (c.bit &&& BitVec.allOnes 1) ++ (a &&& 0#64) := BitVec.and_append
    _ = c.bit ++ 0#64 := by rw [BitVec.and_allOnes, BitVec.and_zero]

/-- A defined row masks no bit away, so it selects its match alone. -/
theorem eq_matchBits_of_definedRow_selects {row : Row} {sel : BitVec 65} (hrow : row ∈ definedRows)
    (h : row.selects sel = true) : sel = row.matchBits := by
  have full : ∀ row ∈ definedRows, row.maskBits = BitVec.allOnes 65 := by decide
  rwa [Row.selects, full row hrow, BitVec.and_allOnes, beq_iff_eq] at h

/-- Each defined row's match holds one of the four default offsets. -/
theorem definedRows_offset_defined :
    ∀ row ∈ definedRows, defaultOffsets.Defined (row.matchBits.setWidth 64) := by decide

/-- No defined row selects a request at an undefined offset. -/
theorem find_definedRows_of_undefined {r : BusReq} (hr : ¬ defaultOffsets.Defined r.addr) :
    definedRows.find? (·.selects (selector r)) = none := by
  refine List.find?_eq_none.mpr fun row hrow selected => hr ?_
  rw [← setWidth_selector r, eq_matchBits_of_definedRow_selects hrow selected]
  exact definedRows_offset_defined row hrow

/-- At an undefined offset the table selects the INVALID row of the command. -/
theorem tableSelect_of_undefined {r : BusReq} (hr : ¬ defaultOffsets.Defined r.addr) :
    tableSelect (selector r) = some (r.row none).mnemonic := by
  rw [tableSelect, List.find?_append, find_definedRows_of_undefined hr, Option.none_or]
  cases r with
  | write a data =>
    have command : selector (.write a data) &&& 0x10000000000000000#65 = 0x10000000000000000#65 :=
      selector_and_commandMask .write a
    simp [invalidRows, Row.selects, command, BusReq.row, Instr.mnemonic]
  | read a len =>
    have command : selector (.read a len) &&& 0x10000000000000000#65 = 0#65 :=
      selector_and_commandMask .read a
    simp [invalidRows, Row.selects, command, BusReq.row, Instr.mnemonic]

/-- At a default offset the table selects the row of the command and the half. -/
theorem tableSelect_at_offset (r : BusReq) (g : Half) :
    tableSelect (r.cmd.bit ++ g.offset defaultOffsets) = some (r.row (some g)).mnemonic := by
  cases r with
  | write a data => change tableSelect (Cmd.write.bit ++ _) = _; cases g <;> rfl
  | read a len => change tableSelect (Cmd.read.bit ++ _) = _; cases g <;> rfl

/-- The match and mask table selects the row of the decode table. -/
theorem tableSelect_selector (r : BusReq) :
    tableSelect (selector r) = some (r.row (halfAt defaultOffsets r.addr)).mnemonic := by
  cases hh : halfAt defaultOffsets r.addr with
  | none => exact tableSelect_of_undefined ((halfAt_eq_none_iff _ _).mp hh)
  | some g => rw [selector, eq_offset_of_halfAt hh, tableSelect_at_offset]

/-- Settles O8: what decodes is the row of the decode table, which the match and mask table selects too. -/
theorem decoderAgreesWithMatchAndMask : Obligations.DecoderAgreesWithMatchAndMask := by
  intro r i h
  obtain ⟨-, rfl⟩ := decode_access_ok h
  exact tableSelect_selector r

/-- Settles O9: seven closed words, each run through the decoder. -/
theorem writtenOutWordsDecode : Obligations.WrittenOutWordsDecode :=
  ⟨by decide, by decide, by decide, by decide, by decide, by decide, by decide⟩

end Sys2Proof

/-! ### Bad lengths (O13) and the outbound transaction (O27) -/

namespace Sys2Proof.Machine

/-- The lengths that 30_encoding.md R67 refuses are those that are not legal. -/
theorem not_legalLength {len : Nat} (h : len = 0 ∨ 4 < len) : ¬ LegalLength len := by omega

/-- A taken stimulus that does not decode ends the step in its refusal. -/
theorem stepWith_cons_of_decode_error {o : Offsets} {s : State} {st : Stimulus} {rest : List Stimulus} {e : DecodeError}
    (hs : s.agenda = st :: rest) (he : decode o st = .error e) : stepWith o s = .refused (refusalOf e) := by
  simp only [stepWith, takeStimulus_cons hs, he]

/-- The case of `writeAccess_cases` at a bad length. -/
theorem writeAccess_of_illegal {data : List Byte} (hl : ¬ LegalLength data.length) (effect : Word → State → State)
    (s : State) : writeAccess data effect s = .refused .badLength :=
  (writeAccess_cases data effect s).elim (fun ⟨legal, _⟩ => absurd legal hl) (fun ⟨_, refused⟩ => refused)

/-- The case of `readAccess_cases` at a bad length. -/
theorem readAccess_of_illegal {len : Nat} (hl : ¬ LegalLength len) (effect : State → State) (h : Half) (s : State) :
    readAccess len effect h s = .refused .badLength :=
  (readAccess_cases len effect h s).elim (fun ⟨legal, _⟩ => absurd legal hl) (fun ⟨_, refused⟩ => refused)

/-- The case of `errorAccess_cases` at a bad length. -/
theorem errorAccess_of_illegal {len : Nat} (hl : ¬ LegalLength len) (s : State) :
    errorAccess len s = .refused .badLength :=
  (errorAccess_cases len s).elim (fun ⟨legal, _⟩ => absurd legal hl) (fun ⟨_, refused⟩ => refused)

/-- Settles O13: the decoder refuses the request before its offset is looked at, and each operation's front end refuses
the length before its effect. -/
theorem badLengthIsRefused : Obligations.BadLengthIsRefused := by
  refine ⟨fun o s r rest hs hr => ?_, fun s a data hd => ?_, fun s a len hlen => ?_⟩
  · exact stepWith_cons_of_decode_error hs (decode_access_of_illegal (not_legalLength hr))
  · have illegal := not_legalLength hd
    exact ⟨writeAccess_of_illegal illegal _ s, writeAccess_of_illegal illegal _ s, writeAccess_of_illegal illegal _ s,
      writeAccess_of_illegal illegal _ s, errorAccess_of_illegal illegal s⟩
  · have illegal := not_legalLength hlen
    exact ⟨readAccess_of_illegal illegal _ _ s, readAccess_of_illegal illegal _ _ s, readAccess_of_illegal illegal _ _ s,
      readAccess_of_illegal illegal _ _ s, errorAccess_of_illegal illegal s⟩

/-- Settles O27: the transaction is a constant; the fields of its cause word and its bytes are computed from it. -/
theorem outboundTransactionIsFixed : Obligations.OutboundTransactionIsFixed :=
  ⟨rfl, rfl, rfl, rfl, rfl, by decide, by decide, by decide⟩

end Sys2Proof.Machine

/-! ### The register writes (O14, O15, O16, O17) -/

namespace Sys2Proof.Machine

/-- The word a write of a legal length assembles holds the payload, whatever the free bytes above it are
(30_encoding.md R63). -/
theorem carriesPayload_scratch {data : List Byte} (hl : LegalLength data.length) (draw : Word) :
    CarriesPayload data (scratch data draw) := scratch_low_bytes data hl.2 draw

/-- The case of `writeAccess_cases` at a legal length: the effect sees a word that holds the payload and, but for the
count of draws, the state as it was (40_register_writes.md R80). -/
theorem writeAccess_of_legal {data : List Byte} (hl : LegalLength data.length) (effect : Word → State → State)
    (s : State) : ∃ (w : Word) (k : Nat), CarriesPayload data w ∧
      writeAccess data effect s = .next ((effect w { s with draws := k }).setRsp (some (okRsp none))) := by
  obtain ⟨-, answered⟩ | ⟨illegal, -⟩ := writeAccess_cases data effect s
  · rw [spendShort_eq] at answered
    exact ⟨_, _, carriesPayload_scratch hl _, answered⟩
  · exact absurd hl illegal

/-- Settles O14: the effect is the write of the stored half TIME_LO, which `writeHalf` defines as this one update. -/
theorem wrTimeLoReplacesLowHalf : Obligations.WrTimeLoReplacesLowHalf :=
  fun _ s hl => writeAccess_of_legal hl (writeHalf .timeLo) s

/-- Settles O15: the effect is the write of the stored half TIME_HI. -/
theorem wrTimeHiReplacesHighHalf : Obligations.WrTimeHiReplacesHighHalf :=
  fun _ s hl => writeAccess_of_legal hl (writeHalf .timeHi) s

/-- Settles O16: the effect is the write of the stored half CMP_LO, which leaves the slot. -/
theorem wrCmpLoReplacesLowHalf : Obligations.WrCmpLoReplacesLowHalf :=
  fun _ s hl => writeAccess_of_legal hl (writeHalf .cmpLo) s

/-- Settles O17: the deadline is set from the delay of the NEW `mtimecmp`, which is the difference or, on underflow,
that difference plus `2^64` (42_interrupt_waiter.md R102). -/
theorem wrCmpHiReplacesHighHalfAndArms : Obligations.WrCmpHiReplacesHighHalfAndArms := by
  intro data s hl
  obtain ⟨w, k, payload, answered⟩ := writeAccess_of_legal hl writeCmpHi s
  rw [writeCmpHi_eq] at answered
  exact ⟨w, withHi s.mtimecmp w, (delay (withHi s.mtimecmp w) s.mtime).toNat, k, payload, rfl,
    delay_toNat_of_le, delay_toNat_of_lt, answered⟩

end Sys2Proof.Machine

/-! ### The INVALID accesses (O18) -/

namespace Sys2Proof.Machine

/-- Settles O18: WR_INVALID and RD_INVALID are one access, whatever the offset and the payload, and its latency is the
one that is free at the present count of draws. -/
theorem invalidAccessAnswersAddressError : Obligations.InvalidAccessAnswersAddressError := by
  intro a s
  have answers : ∀ len : Nat, LegalLength len → ∃ l k : Nat,
      errorAccess len s = .next { s with
        rsp := some { status := .addressError, rdata := none, latency := l }, draws := k } :=
    fun _ hl => ⟨Config.errorLatency s.draws, s.draws + 1, errorAccess_of_legal hl s⟩
  exact ⟨fun data hl => answers data.length hl, answers⟩

end Sys2Proof.Machine

/-! ### The register reads (O20, O21) and reading back what was written (O23) -/

namespace Sys2Proof.Machine

/-- The case of `readAccess_cases` at a legal length: the answer lists the low bytes of the half, which are bytes of the
register the half is cut from after the read's side effect (41_register_reads.md R90). -/
theorem readAccess_of_legal {len : Nat} (hl : LegalLength len) {effect : State → State} {h : Half} {s : State}
    {reg : DWord} {start : Nat} (cut : readHalf h (effect s) = reg.extractLsb' start 32) :
    readAccess len effect h s = .next ((effect s).setRsp (some (okRsp (some (registerBytes reg start len))))) := by
  obtain ⟨-, answered⟩ | ⟨illegal, -⟩ := readAccess_cases len effect h s
  · have bytes : readBytes (readHalf h (effect s)) len = registerBytes reg start len := by
      rw [cut]
      exact readBytes_half reg start len hl.2
    rw [answered, bytes]
  · exact absurd hl illegal

/-- Settles O20: the half is cut from the refreshed `mtime`, which is the live clock. -/
theorem rdTimeLoRefreshesAndReturnsLow : Obligations.RdTimeLoRefreshesAndReturnsLow := by
  intro len s hl
  have cut : readHalf .timeLo (refresh s) = (now64 s).extractLsb' 0 32 := rfl
  exact readAccess_of_legal hl cut

/-- Settles O21: a read with the identity as its side effect, at each half other than TIME_LO. -/
theorem plainReadsReturnStoredHalf : Obligations.PlainReadsReturnStoredHalf := by
  intro len s hl
  have cutTimeHi : readHalf .timeHi (id s) = s.mtime.extractLsb' 32 32 := rfl
  have cutCmpLo : readHalf .cmpLo (id s) = s.mtimecmp.extractLsb' 0 32 := rfl
  have cutCmpHi : readHalf .cmpHi (id s) = s.mtimecmp.extractLsb' 32 32 := rfl
  exact ⟨readAccess_of_legal hl cutTimeHi, readAccess_of_legal hl cutCmpLo, readAccess_of_legal hl cutCmpHi⟩

/-- The answer to an access is kept beside the registers, not in them. -/
@[simp] theorem readHalf_setRsp (h : Half) (s : State) (r : Option BusRsp) : readHalf h (s.setRsp r) = readHalf h s := by
  cases h <;> rfl

/-- Arming sets the slot and leaves every stored half (42_interrupt_waiter.md R101). -/
@[simp] theorem readHalf_armDeadline (h : Half) (s : State) : readHalf h (armDeadline s) = readHalf h s := by
  cases h <;> rfl

/-- `WR name, v` completes at the same time `T` and leaves `v` in the half, at CMP_HI although it also notifies. -/
theorem exec_wr_stores (h : Half) (v : Word) (s : State) :
    ∃ t, exec (wr h v) s = .next t ∧ readHalf h t = v ∧ t.T = s.T := by
  refine ⟨_, exec_wr h v s, ?_⟩
  rw [readHalf_setRsp]
  cases h with
  | timeLo => exact ⟨readHalf_writeHalf_self _ _ _, rfl⟩
  | timeHi => exact ⟨readHalf_writeHalf_self _ _ _, rfl⟩
  | cmpLo => exact ⟨readHalf_writeHalf_self _ _ _, rfl⟩
  | cmpHi => exact ⟨(readHalf_armDeadline _ _).trans (readHalf_writeHalf_self _ _ _), rfl⟩

/-- `RD name` of a half other than TIME_LO answers the four bytes stored there (41_register_reads.md R92 to R94). -/
theorem exec_rd_stored {h : Half} (hne : h ≠ .timeLo) (s : State) :
    exec (rd h) s = .next (s.setRsp (some (okRsp (some (wordBytes (readHalf h s)))))) := by
  rw [exec_rd]
  cases h with
  | timeLo => exact absurd rfl hne
  | timeHi => rfl
  | cmpLo => rfl
  | cmpHi => rfl

/-- A run of two operations that both go on ends where the second does. -/
theorem runInstrs_pair {i j : Instr} {s t u : State} (hi : exec i s = .next t) (hj : exec j t = .next u) :
    runInstrs [i, j] s = .next u := by
  rw [runInstrs_cons_of_next hi, runInstrs_cons_of_next hj, runInstrs_nil]

/-- Settles O23: the write leaves the value in the half, which a plain read answers; at TIME_LO the read refreshes first,
and the write has not moved the time it refreshes from (90_conflicts.md C2). -/
theorem writtenHalvesReadBackExceptTimeLo : Obligations.WrittenHalvesReadBackExceptTimeLo := by
  intro v s
  refine ⟨fun h hne => ?_, ?_⟩
  · obtain ⟨t, wrote, stored, -⟩ := exec_wr_stores h v s
    have answered := exec_rd_stored hne t
    rw [stored] at answered
    exact ⟨_, runInstrs_pair wrote answered, rfl⟩
  · obtain ⟨t, wrote, -, sameTime⟩ := exec_wr_stores .timeLo v s
    have answered := rdTimeLoRefreshesAndReturnsLow 4 t (by decide)
    rw [sameTime] at answered
    exact ⟨_, runInstrs_pair wrote answered, rfl⟩

end Sys2Proof.Machine

/-! ### The two steps of time (O25, O26) -/

namespace Sys2Proof.Machine

section
variable {dt d : Nat} {s : State}

/-- Time that is not held up moves, and moves nothing but `T` (42_interrupt_waiter.md R104). -/
theorem exec_advance_of_enabled (pos : 0 < dt) (enabled : ∀ d, s.wake = some d → s.T + dt ≤ d) :
    exec (.advance dt) s = .next { s with T := s.T + dt } :=
  calc exec (.advance dt) s
      = if advanceEnabled dt s then .next (s.setTime (s.T + dt)) else .fault .advanceNotEnabled := if_neg pos.ne'
    _ = .next { s with T := s.T + dt } := if_pos ((advanceEnabled_iff dt s).mpr enabled)

/-- Time does not step over a pending deadline (42_interrupt_waiter.md R104). -/
theorem exec_advance_of_passes (pos : 0 < dt) (pending : s.wake = some d) (passes : d < s.T + dt) :
    exec (.advance dt) s = .fault .advanceNotEnabled :=
  have disabled : ¬ advanceEnabled dt s = true := fun enabled =>
    absurd ((advanceEnabled_iff dt s).mp enabled d pending) (Nat.not_le.mpr passes)
  calc exec (.advance dt) s
      = if advanceEnabled dt s then .next (s.setTime (s.T + dt)) else .fault .advanceNotEnabled := if_neg pos.ne'
    _ = .fault .advanceNotEnabled := if_neg disabled

/-- A due notification holds time: every ADVANCE passes it (42_interrupt_waiter.md R108). -/
theorem exec_advance_of_due (pos : 0 < dt) (due : s.wake = some s.T) :
    exec (.advance dt) s = .fault .advanceNotEnabled :=
  exec_advance_of_passes pos due (Nat.lt_add_of_pos_right pos)

/-- FIRE runs when a notification is due now (42_interrupt_waiter.md R105). -/
theorem exec_fire_of_due (due : s.wake = some s.T) : exec .fire s = .next (fireWaiter s) :=
  if_pos ((fireEnabled_iff s).mpr due)

/-- The waiter has one control state, so firing changes the slot and the trace only (10_state.md R34 I2). -/
theorem fireWaiter_eq_of_waiting (s : State) :
    fireWaiter s = { s with wake := none, irqLog := s.irqLog ++ [(s.T, irqTxn)] } := by
  rw [fireWaiter_eq, ← s.waiter_eq_waiting]

end

/-- Settles O25, one law per clause. -/
theorem advanceRunsExactlyWhenEnabled : Obligations.AdvanceRunsExactlyWhenEnabled :=
  fun _ _ => ⟨exec_advance_of_enabled, fun _ => exec_advance_of_passes, fun zero => if_pos zero⟩

/-- Settles O26, one law per clause. -/
theorem fireRunsExactlyWhenDue : Obligations.FireRunsExactlyWhenDue :=
  fun _ => ⟨exec_fire_of_due, exec_fire_of_not_due⟩

end Sys2Proof.Machine

/-! ### Runs without a CMP_HI write (O34, O36) -/

namespace Sys2Proof.Machine

/-- `exec_notification_cases` at a CMP_HI write: it arms and delivers nothing (42_interrupt_waiter.md R101). -/
theorem exec_wrCmpHi_next {data : List Byte} {s t : State} (h : exec (.wrCmpHi data) s = .next t) :
    t.wake = some (s.T + (delay t.mtimecmp t.mtime).toNat) ∧ t.T = s.T ∧ t.irqLog = s.irqLog := by
  obtain ⟨noWrite, -⟩ | ⟨-, armed⟩ | ⟨dt, advances, -⟩ | ⟨fires, -⟩ := exec_notification_cases h
  · cases noWrite
  · exact armed
  · cases advances
  · cases fires

/-- Nothing is pending and the trace is `log`. -/
def Unarmed (log : List (Nat × IrqTxn)) (s : State) : Prop := s.wake = none ∧ s.irqLog = log

/-- The deadline `d` is pending and not passed, and the trace is `log`. -/
def Awaiting (log : List (Nat × IrqTxn)) (d : Nat) (s : State) : Prop :=
  s.wake = some d ∧ s.irqLog = log ∧ s.T ≤ d

/-- The deadline `d` is still awaited, or it was delivered once, at its time, and nothing is pending. -/
def AwaitingOrDelivered (log : List (Nat × IrqTxn)) (d : Nat) (s : State) : Prop :=
  Awaiting log d s ∨ Unarmed (log ++ [(d, irqTxn)]) s ∧ d ≤ s.T

section
variable {log : List (Nat × IrqTxn)} {d : Nat} {i : Instr} {s t : State}

/-- With nothing pending FIRE is not enabled, so only a CMP_HI write could change the slot or the trace
(42_interrupt_waiter.md R107). -/
theorem exec_keeps_unarmed (noWrite : isCmpHiWrite i = false) (hs : Unarmed log s) (h : exec i s = .next t) :
    Unarmed log t := by
  obtain ⟨idle, trace⟩ := hs
  obtain ⟨-, hwake, -, hlog⟩ | ⟨write, -⟩ | ⟨dt, -, -, -, rfl⟩ | ⟨-, due, -⟩ := exec_notification_cases h
  · exact ⟨hwake.trans idle, hlog.trans trace⟩
  · rw [noWrite] at write; cases write
  · exact ⟨idle, trace⟩
  · rw [idle] at due; cases due

/-- A pending deadline is still awaited after an operation, or FIRE has delivered it, at its time. -/
theorem exec_awaiting_continues_or_delivers (noWrite : isCmpHiWrite i = false) (hs : Awaiting log d s)
    (h : exec i s = .next t) : AwaitingOrDelivered log d t := by
  obtain ⟨pending, trace, notPassed⟩ := hs
  obtain ⟨-, hwake, hT, hlog⟩ | ⟨write, -⟩ | ⟨dt, -, -, enabled, rfl⟩ | ⟨-, due, rfl⟩ := exec_notification_cases h
  · exact .inl ⟨hwake.trans pending, hlog.trans trace, hT.trans_le notPassed⟩
  · rw [noWrite] at write; cases write
  · exact .inl ⟨pending, trace, enabled d pending⟩
  · have now : s.T = d := Option.some.inj (due.symm.trans pending)
    refine .inr ⟨⟨rfl, ?_⟩, now.ge⟩
    rw [fireWaiter_eq, now, trace]

/-- Once delivered, the deadline is behind and nothing more is delivered. -/
theorem exec_keeps_awaitingOrDelivered (noWrite : isCmpHiWrite i = false)
    (hs : AwaitingOrDelivered log d s) (h : exec i s = .next t) : AwaitingOrDelivered log d t := by
  obtain awaiting | ⟨delivered, past⟩ := hs
  · exact exec_awaiting_continues_or_delivers noWrite awaiting h
  · obtain ⟨hT, -⟩ := exec_time_trace_grow h
    exact .inr ⟨exec_keeps_unarmed noWrite delivered h, past.trans hT⟩

end

/-- Settles O34: the write leaves its deadline awaited, and every operation but a CMP_HI write keeps it awaited or
delivered. -/
theorem armedDeadlineDeliversExactlyOnce : Obligations.ArmedDeadlineDeliversExactlyOnce := by
  intro data is s t u d write armed noWrite run
  obtain ⟨hwake, hT, hlog⟩ := exec_wrCmpHi_next write
  have deadline : s.T + (delay t.mtimecmp t.mtime).toNat = d := Option.some.inj (hwake.symm.trans armed)
  have awaiting : Awaiting s.irqLog d t := ⟨armed, hlog, by omega⟩
  obtain awaited | ⟨⟨idle, trace⟩, past⟩ :=
    runInstrs_induction (fun _ _ _ => exec_keeps_awaitingOrDelivered) is t u noWrite (.inl awaiting) run
  · exact .inl awaited
  · exact .inr ⟨idle, trace, past⟩

/-- Settles O36: every operation but a CMP_HI write keeps the timer unarmed. -/
theorem unarmedTimerNeverDelivers : Obligations.UnarmedTimerNeverDelivers :=
  fun is s t idle noWrite run =>
    runInstrs_induction (P := Unarmed s.irqLog) (fun _ _ _ => exec_keeps_unarmed) is s t noWrite ⟨idle, rfl⟩ run

end Sys2Proof.Machine

/-! ### Which steps run (O12, O29) -/

namespace Sys2Proof.Machine

/-- ADVANCE completes exactly when it is enabled (42_interrupt_waiter.md R104). -/
theorem exec_advance_completes_iff {dt : Nat} {s : State} :
    (∃ t, exec (.advance dt) s = .next t) ↔ 0 < dt ∧ ∀ d, s.wake = some d → s.T + dt ≤ d := by
  constructor
  · rintro ⟨t, h⟩
    obtain ⟨pos, enabled, -⟩ := execAdvance_next h
    exact ⟨pos, enabled⟩
  · rintro ⟨pos, enabled⟩
    exact ⟨_, exec_advance_of_enabled pos enabled⟩

/-- FIRE completes exactly when it is enabled (42_interrupt_waiter.md R105). -/
theorem exec_fire_completes_iff {s : State} : (∃ t, exec .fire s = .next t) ↔ s.wake = some s.T := by
  constructor
  · rintro ⟨t, h⟩
    obtain ⟨due, -⟩ := execFire_next h
    exact due
  · exact fun due => ⟨_, exec_fire_of_due due⟩

theorem writeAccess_completes {data : List Byte} (hl : LegalLength data.length) (effect : Word → State → State)
    (s : State) : ∃ t, writeAccess data effect s = .next t := by
  obtain ⟨w, k, -, answered⟩ := writeAccess_of_legal hl effect s
  exact ⟨_, answered⟩

theorem readAccess_completes {len : Nat} (hl : LegalLength len) (effect : State → State) (g : Half) (s : State) :
    ∃ t, readAccess len effect g s = .next t := by
  obtain ⟨-, answered⟩ | ⟨illegal, -⟩ := readAccess_cases len effect g s
  · exact ⟨_, answered⟩
  · exact absurd hl illegal

theorem errorAccess_completes {len : Nat} (hl : LegalLength len) (s : State) : ∃ t, errorAccess len s = .next t :=
  ⟨_, errorAccess_of_legal hl s⟩

/-- An access of a legal length completes, whichever row its offset selects and in every state
(42_interrupt_waiter.md R112). -/
theorem exec_row_completes {r : BusReq} (hl : LegalLength r.len) (h : Option Half) (s : State) :
    ∃ t, exec (r.row h) s = .next t := by
  cases r with
  | write a data =>
    match h with
    | some .timeLo => exact writeAccess_completes hl _ s
    | some .timeHi => exact writeAccess_completes hl _ s
    | some .cmpLo => exact writeAccess_completes hl _ s
    | some .cmpHi => exact writeAccess_completes hl _ s
    | none => exact errorAccess_completes hl s
  | read a len =>
    match h with
    | some .timeLo => exact readAccess_completes hl _ _ s
    | some .timeHi => exact readAccess_completes hl _ _ s
    | some .cmpLo => exact readAccess_completes hl _ _ s
    | some .cmpHi => exact readAccess_completes hl _ _ s
    | none => exact errorAccess_completes hl s

/-- A placed step that answers a next state decoded to an instruction: `stepWith_next` where the stimulus is placed. -/
theorem decode_ok_of_stepWith_cons_next {o : Offsets} {s t : State} {st : Stimulus} {rest : List Stimulus}
    (hs : s.agenda = st :: rest) (h : stepWith o s = .next t) : ∃ i, decode o st = .ok i := by
  obtain ⟨i, hi, -⟩ := stepWith_next h
  rw [takeStimulus_cons hs] at hi
  exact ⟨i, hi⟩

/-- Settles O12: what decodes is run in the state without the stimulus, which enables the same steps; a bad length and
ADVANCE(0) do not decode. -/
theorem stepRunsExactlyWhenEnabled : Obligations.StepRunsExactlyWhenEnabled := by
  intro o s st rest hs
  cases st with
  | access r =>
    constructor
    · rintro ⟨t, h⟩
      obtain ⟨i, decoded⟩ := decode_ok_of_stepWith_cons_next hs h
      obtain ⟨legal, -⟩ := decode_access_ok decoded
      exact legal
    · intro legal
      rw [stepWith_cons_of_decode_ok hs (decode_access_of_legal legal)]
      exact exec_row_completes legal _ _
  | advance dt =>
    by_cases zero : dt = 0
    · rw [stepWith_cons_of_decode_error hs (if_pos zero)]
      constructor
      · rintro ⟨t, h⟩
        cases h
      · rintro ⟨pos, -⟩
        exact absurd zero pos.ne'
    · rw [stepWith_cons_of_decode_ok hs (if_neg zero)]
      exact exec_advance_completes_iff
  | fire =>
    rw [stepWith_cons_of_decode_ok hs rfl]
    exact exec_fire_completes_iff

/-- Settles O29: a due notification enables FIRE and holds time; one that is not due lies, by the invariant, in the
future, and leaves room for `ADVANCE(1)`. -/
theorem exactlyOneOfFireAndAdvanceRuns : Obligations.ExactlyOneOfFireAndAdvanceRuns := by
  intro s inv
  by_cases due : s.wake = some s.T
  · exact .inl ⟨exec_fire_completes_iff.mpr due, exec_advance_of_due Nat.one_pos due⟩
  · have future : ∀ d, s.wake = some d → s.T + 1 ≤ d := fun d pending =>
      Nat.lt_of_le_of_ne (inv.deadline_not_passed d pending) fun now => due (now ▸ pending)
    exact .inr ⟨exec_advance_completes_iff.mpr ⟨Nat.one_pos, future⟩, exec_fire_of_not_due due⟩

end Sys2Proof.Machine

/-! ### What a due or pending notification leads to (O30, O35, O39, O40) -/

namespace Sys2Proof.Machine

/-- A run that completes went through the state between any two parts of it. -/
theorem runInstrs_append_next {is js : List Instr} {s u : State} (h : runInstrs (is ++ js) s = .next u) :
    ∃ t, runInstrs is s = .next t ∧ runInstrs js t = .next u := by
  induction is generalizing s with
  | nil => exact ⟨s, rfl, h⟩
  | cons i is ih =>
    obtain ⟨v, hi, rest⟩ := runInstrs_cons_next h
    obtain ⟨t, his, hjs⟩ := ih rest
    exact ⟨t, (runInstrs_cons_of_next hi).trans his, hjs⟩

/-- A due notification stays due under every operation but FIRE and a CMP_HI write: time does not move. -/
theorem exec_keeps_due {i : Instr} {s t : State} (other : ¬ (i = .fire ∨ isCmpHiWrite i = true))
    (due : s.wake = some s.T) (h : exec i s = .next t) : t.wake = some t.T := by
  obtain ⟨-, hwake, hT, -⟩ | ⟨write, -⟩ | ⟨dt, rfl, pos, -⟩ | ⟨fires, -⟩ := exec_notification_cases h
  · rw [hwake, hT, due]
  · exact absurd (.inr write) other
  · rw [exec_advance_of_due pos due] at h; cases h
  · exact absurd (.inl fires) other

/-- A run that starts with a notification due and ends with none due has fired or superseded it
(42_interrupt_waiter.md R111). -/
theorem exists_fire_or_cmpHiWrite_of_run {is : List Instr} {s t : State} (due : s.wake = some s.T)
    (run : runInstrs is s = .next t) (ends : t.wake ≠ some t.T) : ∃ i ∈ is, i = .fire ∨ isCmpHiWrite i = true := by
  by_contra neither
  have others : ∀ i ∈ is, ¬ (i = .fire ∨ isCmpHiWrite i = true) := fun i hi taken => neither ⟨i, hi, taken⟩
  exact ends (runInstrs_induction (P := fun u => u.wake = some u.T) (fun _ _ _ => exec_keeps_due) is s t others due run)

/-- Settles O30: before an ADVANCE that ran, as at the end, nothing is due any more. -/
theorem dueFireIsTakenOrSuperseded : Obligations.DueFireIsTakenOrSuperseded := by
  intro is s t due run
  refine ⟨fun before later dt split => ?_, exists_fire_or_cmpHiWrite_of_run due run⟩
  rw [split] at run
  obtain ⟨u, first, rest⟩ := runInstrs_append_next run
  obtain ⟨v, advanced, -⟩ := runInstrs_cons_next rest
  refine exists_fire_or_cmpHiWrite_of_run due first fun stillDue => ?_
  obtain ⟨pos, -⟩ := execAdvance_next advanced
  rw [exec_advance_of_due pos stillDue] at advanced
  cases advanced

/-- Settles O35: ADVANCE to the deadline passes nothing, and leaves the notification due. -/
theorem pendingDeadlineCanBeReachedAndFired : Obligations.PendingDeadlineCanBeReachedAndFired := by
  intro s d pending future
  have reached : s.T + (d - s.T) = d := Nat.add_sub_of_le future.le
  have enabled : ∀ e, s.wake = some e → s.T + (d - s.T) ≤ e := fun e he => by
    rw [reached, Option.some.inj (pending.symm.trans he)]
  have advanced := exec_advance_of_enabled (Nat.sub_pos_of_lt future) enabled
  rw [reached] at advanced
  have fired := exec_fire_of_due (s := { s with T := d }) pending
  rw [fireWaiter_eq_of_waiting] at fired
  exact runInstrs_pair advanced fired

/-- Settles O39: the delay of equal registers is 0, so the deadline is the present time, where a due notification holds
time and FIRE runs. -/
theorem zeroDelayFiresBeforeTimeMoves : Obligations.ZeroDelayFiresBeforeTimeMoves := by
  intro data s t write equal
  obtain ⟨hwake, hT, hlog⟩ := exec_wrCmpHi_next write
  have armedNow : t.wake = some s.T := by rw [hwake, equal, delay_self]; rfl
  have due : t.wake = some t.T := hT ▸ armedNow
  refine ⟨armedNow, hlog, fun _ pos => exec_advance_of_due pos due, fireWaiter t, exec_fire_of_due due, ?_, rfl⟩
  rw [fireWaiter_eq, hlog, hT]

/-- A CMP_HI write replaces the slot whatever it held, and neither looks at the trace nor changes it
(42_interrupt_waiter.md R103). -/
theorem exec_wrCmpHi_of_other_notification {data : List Byte} {s t : State} (h : exec (.wrCmpHi data) s = .next t)
    (wake : Option Nat) (log : List (Nat × IrqTxn)) :
    exec (.wrCmpHi data) { s with wake := wake, irqLog := log } = .next { t with irqLog := log } := by
  obtain ⟨legal, rfl⟩ := writeAccess_next h
  obtain ⟨-, answered⟩ | ⟨illegal, -⟩ := writeAccess_cases data writeCmpHi { s with wake := wake, irqLog := log }
  · rw [spendShort_eq] at answered ⊢
    exact answered
  · exact absurd legal illegal

/-- Settles O40: the write runs in both orders and FIRE, taken first, changes only the slot and the trace. -/
theorem dueDeadlineMayFireOrBeSuperseded : Obligations.DueDeadlineMayFireOrBeSuperseded := by
  intro data s due legal
  obtain ⟨t, write⟩ : ∃ t, exec (.wrCmpHi data) s = .next t := writeAccess_completes legal writeCmpHi s
  obtain ⟨-, -, hlog⟩ := exec_wrCmpHi_next write
  have fired := exec_fire_of_due due
  rw [fireWaiter_eq_of_waiting] at fired
  exact ⟨t, write, hlog, runInstrs_pair fired (exec_wrCmpHi_of_other_notification write none _)⟩

end Sys2Proof.Machine

/-! ### The two reads of the clock (O24) -/

namespace Sys2Proof.Machine

/-- The bytes of a register in two runs: the first `m`, then the `n` above them (20_memory.md R43). -/
theorem registerBytes_add (reg : DWord) (start m n : Nat) :
    registerBytes reg start (m + n) = registerBytes reg start m ++ registerBytes reg (start + 8 * m) n := by
  simp only [registerBytes, List.range_add, List.map_append, List.map_map]
  congr 1
  refine List.map_congr_left fun i _ => ?_
  rw [Function.comp_apply, Nat.mul_add, Nat.add_assoc]

/-- A run of operations that write no `mtime` keeps it, however far time moves (10_state.md R21). -/
theorem runInstrs_keeps_mtime {is : List Instr} {s t : State} (noWrite : ∀ i ∈ is, writesMtime i = false)
    (run : runInstrs is s = .next t) : t.mtime = s.mtime := by
  refine runInstrs_induction (P := fun u => u.mtime = s.mtime) (ok := fun i => writesMtime i = false)
    (fun i u v noWrite same h => ?_) is s t noWrite rfl run
  obtain ⟨kept | writes, -⟩ := exec_register_answer_cases h
  · exact kept.trans same
  · rw [noWrite] at writes; cases writes

/-- Settles O24: the TIME_LO read stores the whole sample in `mtime`, where the high half waits for the TIME_HI read. -/
theorem lowThenHighReadIsOneSnapshot : Obligations.LowThenHighReadIsOneSnapshot := by
  intro is s t u v readLow noWrite run readHigh
  have low := rdTimeLoRefreshesAndReturnsLow 4 s (by decide)
  obtain ⟨high, -⟩ := plainReadsReturnStoredHalf 4 u (by decide)
  have kept := runInstrs_keeps_mtime noWrite run
  obtain rfl := Host.Outcome.next.inj (low.symm.trans readLow)
  obtain rfl := Host.Outcome.next.inj (high.symm.trans readHigh)
  have sample : u.mtime = BitVec.ofNat 64 s.T := kept
  rw [sample]
  exact ⟨_, _, rfl, rfl, (registerBytes_add _ 0 4 4).symm⟩

end Sys2Proof.Machine

/-! ### Updates of `mtimecmp` in two and three stores (O41, O42, O43) -/

namespace Sys2Proof.Machine

/-- `WR CMP_LO, w` replaces the low half and moves no deadline (40_register_writes.md R83). -/
theorem exec_wr_cmpLo (w : Word) (s : State) :
    exec (wr .cmpLo w) s = .next { s with mtimecmp := withLo s.mtimecmp w, rsp := some (okRsp none) } :=
  exec_wr .cmpLo w s

/-- `WR CMP_HI, w` replaces the high half and sets the deadline from what `mtimecmp` then holds
(40_register_writes.md R84). -/
theorem exec_wr_cmpHi (w : Word) (s : State) :
    exec (wr .cmpHi w) s = .next { s with
      mtimecmp := withHi s.mtimecmp w
      wake := some (s.T + (delay (withHi s.mtimecmp w) s.mtime).toNat)
      rsp := some (okRsp none) } :=
  exec_wr .cmpHi w s

/-- The live clock loses nothing of a time below `2^64` (00_scope.md R9, 10_state.md R27). -/
theorem now64_toNat_of_lt {s : State} (h : s.T < 2 ^ 64) : (now64 s).toNat = s.T := by
  rw [now64, BitVec.toNat_ofNat, Nat.mod_eq_of_lt h]

/-- `WR64 CMP, v`: at the HI write the low half is already the new one, so the deadline is made from the whole of `v`
(70_reset_and_hazards.md R154). -/
theorem runInstrs_wr64Cmp (v : DWord) (s : State) :
    runInstrs (wr64Cmp v) s = .next { s with
      mtimecmp := v, wake := some (s.T + (delay v s.mtime).toNat), rsp := some (okRsp none) } := by
  have armed := exec_wr_cmpHi (hiHalf v) { s with mtimecmp := withLo s.mtimecmp (loHalf v), rsp := some (okRsp none) }
  rw [withHi_withLo_halves] at armed
  exact runInstrs_pair (exec_wr_cmpLo (loHalf v) s) armed

/-- HI then LO: the deadline is made while the low half is still the old one, and the LO write leaves it there
(70_reset_and_hazards.md R154). -/
theorem runInstrs_cmpHi_cmpLo (v : DWord) (s : State) :
    runInstrs [wr .cmpHi (hiHalf v), wr .cmpLo (loHalf v)] s = .next { s with
      mtimecmp := v
      wake := some (s.T + (delay (withHi s.mtimecmp (hiHalf v)) s.mtime).toNat)
      rsp := some (okRsp none) } := by
  have wroteLow := exec_wr_cmpLo (loHalf v) { s with
    mtimecmp := withHi s.mtimecmp (hiHalf v)
    wake := some (s.T + (delay (withHi s.mtimecmp (hiHalf v)) s.mtime).toNat)
    rsp := some (okRsp none) }
  rw [withLo_withHi_halves] at wroteLow
  exact runInstrs_pair (exec_wr_cmpHi (hiHalf v) s) wroteLow

/-- Settles O42: the delay is that of `v` over the stored `mtime`, in the two cases of 42_interrupt_waiter.md R102. -/
theorem compareUpdateCountsFromStoredTime : Obligations.CompareUpdateCountsFromStoredTime := by
  intro v s
  refine ⟨_, runInstrs_wr64Cmp v s, rfl, rfl, rfl, rfl, fun reached => ?_, fun short => ?_⟩
  · rw [delay_toNat_of_le reached]
  · rw [delay_toNat_of_lt short]

/-- Settles O41: the refresh makes the stored `mtime` the present time, so the delay that O42 counts from it ends
at `v`. -/
theorem armMakesAbsoluteDeadline : Obligations.ArmMakesAbsoluteDeadline := by
  intro v s notPast
  have sample : (now64 s).toNat = s.T := now64_toNat_of_lt (notPast.trans_lt v.isLt)
  obtain ⟨t, run, hcmp, hmtime, hT, hlog, deadline, -⟩ := compareUpdateCountsFromStoredTime v
    ((refresh s).setRsp (some (okRsp (some (wordBytes (loHalf (now64 s)))))))
  have stored : t.mtime.toNat = s.T := (congrArg BitVec.toNat hmtime).trans sample
  have armed : t.wake = some (s.T + (v.toNat - (now64 s).toNat)) := deadline (sample.trans_le notPast)
  rw [sample, Nat.add_sub_of_le notPast] at armed
  exact ⟨t, (runInstrs_cons_of_next (exec_rd .timeLo s)).trans run, armed, hcmp, stored, hT, hlog⟩

/-- Settles O43: the three-store sequence is HI then LO from a low half of all ones. -/
theorem lateLowWriteDoesNotMoveDeadline : Obligations.LateLowWriteDoesNotMoveDeadline := by
  intro v s
  have first := exec_wr_cmpLo 0xFFFFFFFF s
  have later := runInstrs_cmpHi_cmpLo v { s with mtimecmp := withLo s.mtimecmp 0xFFFFFFFF, rsp := some (okRsp none) }
  have allOnes : withHi (withLo s.mtimecmp 0xFFFFFFFF) (hiHalf v) = hiHalf v ++ (0xFFFFFFFF : Word) := by
    rw [withHi, loHalf_withLo]
  rw [allOnes] at later
  have threeStores := (runInstrs_cons_of_next first).trans later
  exact ⟨⟨_, runInstrs_cmpHi_cmpLo v s, rfl, rfl⟩, ⟨_, threeStores, rfl, rfl⟩⟩

end Sys2Proof.Machine

/-! ### The model's choices of the start time and of a free stimulus (O2, O11) -/

namespace Sys2Proof.Machine

/-- Settles O2: `Config.t0` is 0, and the core starts at `State.reset`. -/
theorem resetIsConstructionAtTimeZero : Obligations.ResetIsConstructionAtTimeZero := ⟨rfl, rfl⟩

/-- A step sees its state only through the stimulus taken and the state it is taken in. -/
theorem stepWith_congr {s t : State} (o : Offsets) (same : takeStimulus s = takeStimulus t) :
    stepWith o s = stepWith o t := by
  rw [stepWith, stepWith, same]

/-- With nothing placed, the stimulus taken is the one taken when the free stimulus is placed and paid for. -/
theorem takeStimulus_of_empty_agenda {s : State} (hs : s.agenda = []) :
    takeStimulus s = takeStimulus { s with agenda := [Config.schedule s.draws], draws := s.draws + 1 } := by
  rw [takeStimulus_nil hs, takeStimulus_cons rfl, hs]

/-- Settles O11: the two states give the same stimulus and leave the same state to run it in. -/
theorem stepWithEmptyAgendaIsFree : Obligations.StepWithEmptyAgendaIsFree :=
  fun o _ hs => stepWith_congr o (takeStimulus_of_empty_agenda hs)

end Sys2Proof.Machine

/-! ### The count of free values (O32) -/

namespace Sys2Proof.Machine

/-- How many free values a write of `n` payload bytes takes: one when bytes of the scratch stay open
(30_encoding.md R63). -/
def drawsOfWrite (n : Nat) : Nat := if n < 4 then 1 else 0

theorem drawsOfWrite_of_short {n : Nat} (short : n < 4) : drawsOfWrite n = 1 := if_pos short

/-- How many free values an operation takes when it completes (00_scope.md R10); `exec_draws` ties it to `exec`. -/
def drawsOf : Instr → Nat
  | .wrTimeLo data => drawsOfWrite data.length
  | .wrTimeHi data => drawsOfWrite data.length
  | .wrCmpLo data => drawsOfWrite data.length
  | .wrCmpHi data => drawsOfWrite data.length
  | .rdTimeLo _ => 0
  | .rdTimeHi _ => 0
  | .rdCmpLo _ => 0
  | .rdCmpHi _ => 0
  | .wrInvalid _ _ => 1
  | .rdInvalid _ _ => 1
  | .fire => 0
  | .advance _ => 0

/-- Arming takes no free value. -/
@[simp] theorem writeCmpHi_draws (w : Word) (s : State) : (writeCmpHi w s).draws = s.draws := rfl

/-- A write whose effect leaves the count moves it on by what its payload leaves open. -/
theorem writeAccess_draws {data : List Byte} {effect : Word → State → State} {s t : State}
    (keeps : ∀ w u, (effect w u).draws = u.draws) (h : writeAccess data effect s = .next t) :
    t.draws = s.draws + drawsOfWrite data.length := by
  obtain ⟨-, rfl⟩ := writeAccess_next h
  rw [State.setRsp_draws, keeps, spendShort_eq, drawsOfWrite]
  split <;> rfl

/-- Every operation that completes moves the count on by exactly the free values it takes. -/
theorem exec_draws {i : Instr} {s t : State} (h : exec i s = .next t) : t.draws = s.draws + drawsOf i := by
  cases i with
  | wrTimeLo data => exact writeAccess_draws (writeHalf_draws .timeLo) h
  | wrTimeHi data => exact writeAccess_draws (writeHalf_draws .timeHi) h
  | wrCmpLo data => exact writeAccess_draws (writeHalf_draws .cmpLo) h
  | wrCmpHi data => exact writeAccess_draws writeCmpHi_draws h
  | rdTimeLo len => obtain ⟨-, rfl⟩ := readAccess_next h; rfl
  | rdTimeHi len => obtain ⟨-, rfl⟩ := readAccess_next h; rfl
  | rdCmpLo len => obtain ⟨-, rfl⟩ := readAccess_next h; rfl
  | rdCmpHi len => obtain ⟨-, rfl⟩ := readAccess_next h; rfl
  | wrInvalid addr data => obtain ⟨-, rfl⟩ := errorAccess_next h; rfl
  | rdInvalid addr len => obtain ⟨-, rfl⟩ := errorAccess_next h; rfl
  | fire => obtain ⟨-, rfl⟩ := execFire_next h; rfl
  | advance dt => obtain ⟨-, -, rfl⟩ := execAdvance_next h; rfl

/-- Settles O32: the count grows by `drawsOf`, which is 1 at a short WRITE and at an INVALID access. -/
theorem drawCounterMovesOnAtEachUse : Obligations.DrawCounterMovesOnAtEachUse := by
  intro i s t h
  have grown := exec_draws h
  have moves (one : drawsOf i = 1) : s.draws < t.draws := by omega
  refine ⟨by omega, fun data short write => moves ?_, fun a data len invalid => moves ?_⟩
  · obtain rfl | rfl | rfl | rfl := write <;> exact drawsOfWrite_of_short short
  · obtain rfl | rfl := invalid <;> rfl

end Sys2Proof.Machine

/-! ### The open bytes and the open latency (O33) -/

namespace Sys2Proof.Machine

/-- Byte `k` of a low half, as a byte of the register (20_memory.md R43). -/
theorem byteOf_loHalf (r : DWord) {k : Nat} (inWord : k < 4) : byteOf (loHalf r) k = r.extractLsb' (8 * k) 8 := by
  rw [loHalf, byteOf_half r 0 k inWord, Nat.zero_add]

/-- Byte `k` of a high half, as a byte of the register. -/
theorem byteOf_hiHalf (r : DWord) {k : Nat} (inWord : k < 4) : byteOf (hiHalf r) k = r.extractLsb' (32 + 8 * k) 8 :=
  byteOf_half r 32 k inWord

/-- A CMP_HI write leaves its word in the half it also arms from (40_register_writes.md R84). -/
theorem readHalf_writeCmpHi (w : Word) (s : State) : readHalf .cmpHi (writeCmpHi w s) = w :=
  (readHalf_armDeadline _ _).trans (readHalf_writeHalf_self _ _ _)

/-- A write that leaves its word in a half leaves there, above the payload, the bytes of the free word at the present
count (30_encoding.md R63). `regByte` names the bytes of that half as the register's own. -/
theorem writeAccess_open_bytes {data : List Byte} {effect : Word → State → State} {h : Half}
    {regByte : State → Nat → Byte} (hl : LegalLength data.length) (stores : ∀ w u, readHalf h (effect w u) = w)
    (cut : ∀ t k, k < 4 → byteOf (readHalf h t) k = regByte t k) (s : State) :
    ∃ t, writeAccess data effect s = .next t ∧
      ∀ k, data.length ≤ k → k < 4 → regByte t k = byteOf (Config.draw s.draws) k := by
  obtain ⟨-, answered⟩ | ⟨illegal, -⟩ := writeAccess_cases data effect s
  · refine ⟨_, answered, fun k above inWord => ?_⟩
    rw [← cut _ k inWord, readHalf_setRsp, stores]
    exact byteOf_scratch_open data _ k above inWord
  · exact absurd hl illegal

/-- Settles O33: each WRITE leaves the scratch in its half, whose open bytes are the draw's; both INVALID accesses are
the one that answers ADDRESS_ERROR. -/
theorem openValuesAreThoseAtTheDrawCounter : Obligations.OpenValuesAreThoseAtTheDrawCounter := by
  refine fun s => ⟨fun data nonempty short => ?_, fun a data hl => ⟨_, errorAccess_of_legal hl s, rfl⟩,
    fun a len hl => ⟨_, errorAccess_of_legal hl s, rfl⟩⟩
  have legal : LegalLength data.length := ⟨nonempty, short.le⟩
  exact ⟨writeAccess_open_bytes legal (readHalf_writeHalf_self .timeLo) (fun t _ => byteOf_loHalf t.mtime) s,
    writeAccess_open_bytes legal (readHalf_writeHalf_self .timeHi) (fun t _ => byteOf_hiHalf t.mtime) s,
    writeAccess_open_bytes legal (readHalf_writeHalf_self .cmpLo) (fun t _ => byteOf_loHalf t.mtimecmp) s,
    writeAccess_open_bytes legal readHalf_writeCmpHi (fun t _ => byteOf_hiHalf t.mtimecmp) s⟩

end Sys2Proof.Machine
